-- ==== Sys2Proof/Word.lean ====
section
/-! DEFINITION. The word types of the machine: bytes, 16-bit words, 12-bit addresses, register indices. -/

namespace Sys2Proof

/-- An 8-bit unsigned value: a general register or a byte of memory (rules R5, R11, R30). -/
abbrev Byte := BitVec 8

/-- A 16-bit unsigned value: an instruction word, the program counter, a call-stack slot (rules R4, R50; log 1). -/
abbrev Word := BitVec 16

/-- A 12-bit address operand, the field `addr` (rule R51). -/
abbrev Addr := BitVec 12

/-- The index of a general register, the value of a field `x` or `y`; all 16 are valid (rule R11). -/
abbrev RegIdx := Fin 16

end Sys2Proof
end

