-- ==== Sys2Proof/Syntax.lean ====
section
/-! DEFINITION. The instructions: one constructor per row of spec/opcode_table.json (rule R54), with the operand fields
of its format (rule R52) already taken out of the word (rule R53). -/

namespace Sys2Proof

/-- The 14 instructions. The operand types have exactly the widths of the fields of rule R51, and every value of every
field is legal (rules R11, R56, R62), so every term is an instruction of the hardware. -/
inductive Instr where
  | halt
  | ret
  | jmp (addr : Addr)
  | call (addr : Addr)
  | skipEqImm (x : RegIdx) (kk : Byte)
  | skipNeImm (x : RegIdx) (kk : Byte)
  | skipEqReg (x y : RegIdx)
  | loadImm (x : RegIdx) (kk : Byte)
  | addImm (x : RegIdx) (kk : Byte)
  | loadReg (x y : RegIdx)
  | orReg (x y : RegIdx)
  | andReg (x y : RegIdx)
  | xorReg (x y : RegIdx)
  | addReg (x y : RegIdx)
  deriving DecidableEq, Repr

end Sys2Proof
end

