-- ==== Sys2Proof/WellFormed.lean ====
section
/-! DEFINITION. The opcode table of rule R54 and the check that a 16-bit word is an instruction of it.
A term of `Instr` needs no check of its own: its operand types hold exactly the values the fields hold, and all of them
are legal (rules R11, R53, R56). What can be ill-formed is a WORD, and a host operation (`HostOp.wellFormed`,
Machine/HostOps.lean). -/

namespace Sys2Proof

/-- The names of the opcode table's rows (rule R54). -/
inductive Mnemonic where
  | halt | ret | jmp | call | skipEqImm | skipNeImm | skipEqReg | loadImm | addImm | loadReg | or | and | xor | addReg
  deriving DecidableEq, Repr

/-- The row of the opcode table an instruction belongs to. -/
def Instr.mnemonic : Instr → Mnemonic
  | .halt => .halt
  | .ret => .ret
  | .jmp _ => .jmp
  | .call _ => .call
  | .skipEqImm _ _ => .skipEqImm
  | .skipNeImm _ _ => .skipNeImm
  | .skipEqReg _ _ => .skipEqReg
  | .loadImm _ _ => .loadImm
  | .addImm _ _ => .addImm
  | .loadReg _ _ => .loadReg
  | .orReg _ _ => .or
  | .andReg _ _ => .and
  | .xorReg _ _ => .xor
  | .addReg _ _ => .addReg

/-- One row of the table of rule R54: a word belongs to it when its bits under `mask` are `pattern` (the column `match`). -/
structure OpcodeRow where
  mnemonic : Mnemonic
  pattern  : Word
  mask     : Word
  deriving DecidableEq, Repr

/-- The closed table of rule R54, row by row. -/
def opcodeTable : List OpcodeRow :=
  [⟨.halt,      0x0000#16, 0xFFFF#16⟩,
   ⟨.ret,       0x00EE#16, 0xFFFF#16⟩,
   ⟨.jmp,       0x1000#16, 0xF000#16⟩,
   ⟨.call,      0x2000#16, 0xF000#16⟩,
   ⟨.skipEqImm, 0x3000#16, 0xF000#16⟩,
   ⟨.skipNeImm, 0x4000#16, 0xF000#16⟩,
   ⟨.skipEqReg, 0x5000#16, 0xF00F#16⟩] ++
  [⟨.loadImm,   0x6000#16, 0xF000#16⟩,
   ⟨.addImm,    0x7000#16, 0xF000#16⟩,
   ⟨.loadReg,   0x8000#16, 0xF00F#16⟩,
   ⟨.or,        0x8001#16, 0xF00F#16⟩,
   ⟨.and,       0x8002#16, 0xF00F#16⟩,
   ⟨.xor,       0x8003#16, 0xF00F#16⟩,
   ⟨.addReg,    0x8004#16, 0xF00F#16⟩]

/-- Rule R54: "A word `iw` selects entry `E` when `iw & mask(E) == match(E)`." -/
def OpcodeRow.selects (row : OpcodeRow) (iw : Word) : Bool := (iw &&& row.mask) == row.pattern

/-- A word is well-formed when some row of the table has it; every other word is unimplemented (rule R57). -/
def wellFormedWord (iw : Word) : Bool := opcodeTable.any (·.selects iw)

end Sys2Proof
end

