-- ==== Sys2Proof/Decode.lean ====
section
/-! DEFINITION. From bytes to instructions and back: the byte order of a word (rules R32, R50), its fields (rules R51, R74),
the decision tree of the decode (rules R55, R56, R75), and the encoder, written from the formats of rule R52. -/

namespace Sys2Proof

/-! ## Bytes and words -/

/-- Two bytes as one word, the byte at the lower address in the high half (rules R32, R50). -/
def wordOfBytes (hi lo : Byte) : Word := hi ++ lo

/-- Bits 15:8, the byte stored at the lower address (rule R50). -/
def highByte (iw : Word) : Byte := iw.extractLsb' 8 8

/-- Bits 7:0, the byte stored at the higher address (rule R50). -/
def lowByte (iw : Word) : Byte := iw.extractLsb' 0 8

/-! ## The six fields of rule R51 -/

/-- `op_class`, bits 15:12. -/
def opClass (iw : Word) : BitVec 4 := iw.extractLsb' 12 4

/-- `x`, bits 11:8, as a register index. -/
def fieldX (iw : Word) : RegIdx := (iw.extractLsb' 8 4).toFin

/-- `y`, bits 7:4, as a register index. -/
def fieldY (iw : Word) : RegIdx := (iw.extractLsb' 4 4).toFin

/-- `op_minor`, bits 3:0. -/
def opMinor (iw : Word) : BitVec 4 := iw.extractLsb' 0 4

/-- `addr`, bits 11:0. -/
def fieldAddr (iw : Word) : Addr := iw.extractLsb' 0 12

/-- `kk`, bits 7:0. -/
def fieldKk (iw : Word) : Byte := iw.extractLsb' 0 8

/-! ## Decode -/

/-- Why bytes are no instruction: the default arm of the dispatch, with the word (rules R57, R76); or fewer than two bytes. -/
inductive DecodeError where
  | unimplemented (iw : Word)
  | truncated
  deriving DecidableEq, Repr

/-- Class 0 matches the whole word (rule R55). -/
def decodeClass0 (iw : Word) : Except DecodeError Instr :=
  if iw = 0x0000#16 then .ok .halt
  else if iw = 0x00EE#16 then .ok .ret
  else .error (.unimplemented iw)

/-- Class 5 matches `op_minor` 0 only (rule R56, decision D4; log 6). -/
def decodeClass5 (iw : Word) : Except DecodeError Instr :=
  match (opMinor iw).toNat with
  | 0 => .ok (.skipEqReg (fieldX iw) (fieldY iw))
  | _ => .error (.unimplemented iw)

/-- Class 8 is told apart by `op_minor` 0 to 4 (rule R56). -/
def decodeClass8 (iw : Word) : Except DecodeError Instr :=
  match (opMinor iw).toNat with
  | 0 => .ok (.loadReg (fieldX iw) (fieldY iw))
  | 1 => .ok (.orReg (fieldX iw) (fieldY iw))
  | 2 => .ok (.andReg (fieldX iw) (fieldY iw))
  | 3 => .ok (.xorReg (fieldX iw) (fieldY iw))
  | 4 => .ok (.addReg (fieldX iw) (fieldY iw))
  | _ => .error (.unimplemented iw)

/-- The decision tree of rule R75: each of the 65536 words is one instruction with its operands, or unimplemented with
the word (rule R62). -/
def decode (iw : Word) : Except DecodeError Instr :=
  match (opClass iw).toNat with
  | 0 => decodeClass0 iw
  | 1 => .ok (.jmp (fieldAddr iw))
  | 2 => .ok (.call (fieldAddr iw))
  | 3 => .ok (.skipEqImm (fieldX iw) (fieldKk iw))
  | 4 => .ok (.skipNeImm (fieldX iw) (fieldKk iw))
  | 5 => decodeClass5 iw
  | 6 => .ok (.loadImm (fieldX iw) (fieldKk iw))
  | 7 => .ok (.addImm (fieldX iw) (fieldKk iw))
  | 8 => decodeClass8 iw
  | _ => .error (.unimplemented iw)

/-- Decode the first instruction of a byte sequence, giving the bytes after it; every instruction is two bytes (rule R50). -/
def decodeBytes : List Byte → Except DecodeError (Instr × List Byte)
  | hi :: lo :: rest => (decode (wordOfBytes hi lo)).map (·, rest)
  | _ => .error .truncated

/-! ## Encode -/

/-- Format A: `op_class`, `addr` (rule R52). -/
def encodeA (c : BitVec 4) (addr : Addr) : Word := c ++ addr

/-- Format XK: `op_class`, `x`, `kk` (rule R52). -/
def encodeXK (c : BitVec 4) (x : RegIdx) (kk : Byte) : Word := (c ++ (BitVec.ofFin x : BitVec 4)) ++ kk

/-- Format XY: `op_class`, `x`, `y`, `op_minor` (rule R52). -/
def encodeXY (c : BitVec 4) (x y : RegIdx) (minor : BitVec 4) : Word :=
  ((c ++ (BitVec.ofFin x : BitVec 4)) ++ (BitVec.ofFin y : BitVec 4)) ++ minor

/-- The word of an instruction (rules R52, R54, R60). -/
def encode : Instr → Word
  | .halt => 0x0000#16
  | .ret => 0x00EE#16
  | .jmp addr => encodeA 0x1#4 addr
  | .call addr => encodeA 0x2#4 addr
  | .skipEqImm x kk => encodeXK 0x3#4 x kk
  | .skipNeImm x kk => encodeXK 0x4#4 x kk
  | .skipEqReg x y => encodeXY 0x5#4 x y 0x0#4
  | .loadImm x kk => encodeXK 0x6#4 x kk
  | .addImm x kk => encodeXK 0x7#4 x kk
  | .loadReg x y => encodeXY 0x8#4 x y 0x0#4
  | .orReg x y => encodeXY 0x8#4 x y 0x1#4
  | .andReg x y => encodeXY 0x8#4 x y 0x2#4
  | .xorReg x y => encodeXY 0x8#4 x y 0x3#4
  | .addReg x y => encodeXY 0x8#4 x y 0x4#4

/-- The two bytes of an instruction as memory holds them, high byte first (rule R50). -/
def encodeBytes (i : Instr) : List Byte := [highByte (encode i), lowByte (encode i)]

/-! ## The host's reading of the opcode table -/

/-- The word of an opcode-table row whose `nbits` bits are `w`; bits above `nbits` are 0. -/
def tableWord (nbits w : Nat) : Word := BitVec.ofNat 16 (w % 2 ^ nbits)

/-- The instruction the decoder reads from a row's bits, laid out as two bytes, the high one first (rule R50). -/
def decodeTableWord (nbits w : Nat) : Option Instr :=
  match decodeBytes [highByte (tableWord nbits w), lowByte (tableWord nbits w)] with
  | .ok (i, _) => some i
  | .error _ => none

end Sys2Proof
end

