-- ==== Sys2Proof/Config.lean ====
section
/-! DEFINITION. The implementation parameters of rule R4. Every one has a value in the spec, so none is a free constant:
the spec leaves no value that a step computes open (93_implementation_defined.md, end of Part 1). -/

namespace Sys2Proof.Config

/-- `MEM_SIZE`: bytes of memory, addresses 0x000 to 0xFFF (rule R4). -/
abbrev memSize : Nat := 4096

/-- `STACK_CAP`: slots of the call stack (rules R4, R16). -/
abbrev stackCap : Nat := 16

/-- `FLAG`: the index of the flag register (rules R4, R12). -/
abbrev flagReg : RegIdx := 0xF

/-- `PC_RESET`: the program counter after reset (rule R4; not 0x200, 91_not_in_source.md N8). -/
abbrev pcReset : Word := 0x0000#16

/-- `PC_STEP`: the fetch advance, and the extra advance of a skip (rules R4, R73, R103). -/
abbrev pcStep : Word := 2#16

/-- What a byte that no one has written since reset reads as: the reset contents of memory (rule R24). -/
abbrev resetByte : Byte := 0x00#8

end Sys2Proof.Config
end

