-- ==== Sys2Proof/Machine/State.lean ====
section
/-! DEFINITION. The state of the machine: the tuple of rule R10, and nothing else; its value after reset (rule R24); and the
reasons for which the model stops. -/

namespace Sys2Proof.Machine

/-- The run-loop states (rule R21). -/
inductive RunState where
  | fetching
  | halted
  | faulted
  deriving DecidableEq, Repr

/-- The kinds of the fault record (rules R22, R130). -/
inductive FaultKind where
  | none
  | stackOverflow
  | stackUnderflow
  | unimplementedOpcode
  | outOfBoundsFetch
  deriving DecidableEq, Repr

/-- The fault record `(kind, info)` (rules R10, R22). -/
structure FaultRecord where
  kind : FaultKind
  info : Word
  deriving DecidableEq, Repr

/-- The record while no fault has happened, `(None, 0x0000)` (rule R22, decision D19). -/
def FaultRecord.idle : FaultRecord := ⟨.none, 0x0000#16⟩

/-- The 4096 bytes of memory as a list of (address, byte) pairs in the canonical form of `Memory.wf` (Machine/Ops.lean):
addresses strictly rising, all below 4096, and no byte equal to what an unlisted address reads as. -/
abbrev Memory := List Host.Cell

/-- The complete state (rule R10). -/
structure State where
  /-- `r[0x0]` to `r[0xF]`; `r[0xF]` is the flag register (rules R11, R12). -/
  regs : Vector Byte 16
  /-- The program counter (rule R14; its width is decision D1, log 1). -/
  pc : Word
  /-- The call-stack slots (rule R16; their width is decision D2, log 1). -/
  stack : Vector Word 16
  /-- The index of the next free slot, 0 (empty) to 16 (full) (rule R17; log 2). -/
  sp : Fin 17
  /-- The memory (rules R20, R30). -/
  mem : Memory
  /-- The run-loop state (rule R21). -/
  runState : RunState
  /-- The fault record (rule R22). -/
  fault : FaultRecord
  deriving DecidableEq, Repr

/-- The machine right after reset: rule R24 gives every value. -/
def State.reset : State where
  regs := Vector.replicate 16 0x00#8
  pc := Config.pcReset
  stack := Vector.replicate 16 0x0000#16
  sp := 0
  mem := []
  runState := .fetching
  fault := .idle

/-- Why the MODEL stops. The machine's own fatal conditions are no stop: they are the next state FAULTED with its fault
record (rules R78, R138), so no step and no instruction raises a `Fault`. -/
inductive Fault where
  /-- Raised by a host write to an address above 0xFFF, where "there is no such byte" (rule R163; `HostOp.apply`).
  Safe: the spec gives such a write no effect. -/
  | noSuchByte (address : Nat)
  deriving DecidableEq, Repr

/-- What the model gives no meaning to. No step and no instruction is refused. -/
inductive Refusal where
  /-- An instruction without a meaning yet; no arm of `exec` answers it. Safe. -/
  | notModelled (mnemonic : String)
  /-- Raised by a host write of memory or a register after the first Step, Run or Observe since the last reset: such a history
  is not of the form that rule R164 gives a meaning to, and "a model refuses" it (decision D11; `HostOp.apply`). Safe for the model; unsafe for a proof that takes for granted that a real
  host never does it (log 5). -/
  | writeWindowClosed
  deriving DecidableEq, Repr

end Sys2Proof.Machine
end

