-- ==== Sys2Proof/Machine/Ops.lean ====
section
/-! DEFINITION. The named operations every meaning is written with: registers, program counter, call stack, the fault
procedure, memory and the fetch. -/

namespace Sys2Proof.Machine

/-! ## General registers (rules R6, R11) -/

/-- `r[x]`. -/
def State.reg (s : State) (x : RegIdx) : Byte := s.regs[x]

/-- `r[x] <- v`; no register is hard-wired (rule R11). -/
def State.writeReg (s : State) (x : RegIdx) (v : Byte) : State :=
  { s with regs := s.regs.set x v }

/-! ## Program counter (rules R14, R15) -/

/-- `pc <- a`. -/
def State.setPc (s : State) (a : Word) : State := { s with pc := a }

/-- `pc <- pc + 2`: the fetch advance (rule R73), and the extra advance of a taken skip (rule R103). -/
def State.advancePc (s : State) : State := s.setPc (s.pc + Config.pcStep)

/-- A conditional skip: one more advance exactly when the condition holds (rule R103). -/
def State.skipIf (s : State) (taken : Bool) : State := if taken then s.advancePc else s

/-! ## Call stack (rules R16 to R19) -/

/-- `stack[k]`. -/
def State.slot (s : State) (k : Fin 16) : Word := s.stack[k]

/-- `Push(v)` of rule R18; none when the stack is full. -/
def State.push (s : State) (v : Word) : Option State :=
  if h : s.sp.val < Config.stackCap then
    some { s with stack := s.stack.set s.sp.val v h, sp := ⟨s.sp.val + 1, Nat.succ_lt_succ h⟩ }
  else none

/-- `Pop()` of rule R18: the value of the top live slot and the state without that frame; none when the stack is empty.
The slot keeps its value (rule R19, decision D3; log 3). -/
def State.pop (s : State) : Option (Word × State) :=
  if h : 0 < s.sp.val then
    some (s.stack[s.sp.val - 1]'(by omega), { s with sp := ⟨s.sp.val - 1, by omega⟩ })
  else none

/-! ## Run loop and the fault procedure -/

/-- `run_state <- HALTED` (rule R90). -/
def State.halt (s : State) : State := { s with runState := .halted }

/-- `raise K(info)`: the whole of fault entry (rules R78, R138). There is no return from it (rule R140): no operation
stands beside it, and only reset leaves FAULTED (rule R161). -/
def State.raise (s : State) (kind : FaultKind) (info : Word) : State :=
  { s with runState := .faulted, fault := ⟨kind, info⟩ }

/-! ## Memory (rules R20, R30, R31) -/

/-- `mem[a]`: the listed byte, else the reset contents (rule R24). -/
def Memory.read : Memory → Nat → Byte
  | [], _ => Config.resetByte
  | (k, b) :: m, a => if a = k then b else Memory.read m a

/-- Put a byte in front of the list, or nothing where it is what an unlisted address reads as. -/
def Memory.consCell (a : Nat) (v : Byte) (m : Memory) : Memory :=
  if v = Config.resetByte then m else (a, v) :: m

/-- `mem[a] <- v`, keeping the canonical form. No instruction does this (rule R31); the host's loader does (rule R163). -/
def Memory.write : Memory → Nat → Byte → Memory
  | [], a, v => Memory.consCell a v []
  | (k, b) :: m, a, v =>
    if a < k then Memory.consCell a v ((k, b) :: m)
    else if a = k then Memory.consCell a v m
    else (k, b) :: Memory.write m a v

/-- The canonical form for a list whose addresses are all at least `lo`. -/
def Memory.wfFrom : Nat → Memory → Bool
  | _, [] => true
  | lo, (a, b) :: m => decide (lo ≤ a) && decide (a < Config.memSize) && decide (b ≠ Config.resetByte) && Memory.wfFrom (a + 1) m

/-- The canonical form of memory: addresses strictly rising, all of the 4096 that exist (rule R30), no byte equal to the
reset contents. -/
def Memory.wf (m : Memory) : Bool := Memory.wfFrom 0 m

/-- `mem[a] <- v` on the state. -/
def State.writeMem (s : State) (a : Nat) (v : Byte) : State := { s with mem := s.mem.write a v }

/-- `MemRead(a, 2)` of rule R6: two bytes big-endian (rule R32), or none where the second lies outside memory (rule R34).
Addresses do not wrap. -/
def State.memReadWord (s : State) (a : Nat) : Option Word :=
  if a + 1 < Config.memSize then some (wordOfBytes (s.mem.read a) (s.mem.read (a + 1))) else none

/-! ## Fetch (rules R42, R72) -/

/-- The word at the program counter, or none where the fetch is out of bounds; there is no alignment condition (rule R33). -/
def State.fetch (s : State) : Option Word := s.memReadWord s.pc.toNat

/-- The byte the memory port gives for a 12-bit address (rule R42). -/
def State.portRead (s : State) (a : Addr) : Byte := s.mem.read a.toNat

/-- The addresses a step puts on the memory port: two for a successful fetch, `pc[11:0]` and `pc[11:0] + 1`; none for a
refused one and none outside FETCHING (rules R35, R42, R71). -/
def State.portAddresses (s : State) : List Addr :=
  if s.runState = .fetching ∧ s.pc.toNat + 1 < Config.memSize then
    [s.pc.extractLsb' 0 12, s.pc.extractLsb' 0 12 + 1#12]
  else []

end Sys2Proof.Machine
end

