-- ==== Sys2Proof/Machine/Operands.lean ====
section
/-! DEFINITION. The operand forms of rule R53: a register named by a field, an 8-bit immediate, a 12-bit absolute address. -/

namespace Sys2Proof.Machine

/-- The second operand of a comparison or an operation: a register (field `y`) or an immediate (field `kk`). -/
inductive Source where
  | reg (y : RegIdx)
  | imm (kk : Byte)
  deriving DecidableEq, Repr

/-- The value of a source operand: the register's, or the immediate as it stands, never extended (rule R53). -/
def Source.value (o : Source) (s : State) : Byte :=
  match o with
  | .reg y => s.reg y
  | .imm kk => kk

/-- The target of JMP and CALL: `zext_16(addr)`, absolute, not scaled (rules R53, R92). -/
def targetOf (addr : Addr) : Word := addr.setWidth 16

/-- Does `r[x]` equal the operand, all 8 bits (rules R100 to R102)? -/
def State.regEquals (s : State) (x : RegIdx) (o : Source) : Bool := s.reg x == o.value s

/-- `r[x] <- f(r[x], operand)`, both read before the write (44_register_alu.md, head of the file). -/
def State.applyToReg (s : State) (f : Byte → Byte → Byte) (x : RegIdx) (o : Source) : State :=
  s.writeReg x (f (s.reg x) (o.value s))

end Sys2Proof.Machine
end

