-- ==== Sys2Proof/Machine/ControlFlow.lean ====
section
/-! DEFINITION. HALT, RET, JMP, CALL (41_control_flow.md). On entry `pc` is the instruction's own address + 2 (rule R73). -/

namespace Sys2Proof.Machine

/-- HALT (rule R90): `run_state <- HALTED`, nothing else (decision D23). -/
def execHalt (s : State) : Host.Outcome State Fault Refusal := .next s.halt

/-- RET (rule R91): pop into `pc`; on an empty stack raise StackUnderflow with the word 0x00EE (decision D6, log 4). -/
def execRet (s : State) : Host.Outcome State Fault Refusal :=
  match s.pop with
  | some (a, t) => .next (t.setPc a)
  | none => .next (s.raise .stackUnderflow (encode .ret))

/-- JMP addr (rule R92): no check of the target; the next fetch detects a bad one. -/
def execJmp (addr : Addr) (s : State) : Host.Outcome State Fault Refusal := .next (s.setPc (targetOf addr))

/-- CALL addr (rule R93): push the return address, which is the advanced `pc`, then jump; on a full stack raise
StackOverflow with the word (decision D6, log 4). -/
def execCall (addr : Addr) (s : State) : Host.Outcome State Fault Refusal :=
  match s.push s.pc with
  | some t => .next (t.setPc (targetOf addr))
  | none => .next (s.raise .stackOverflow (encode (.call addr)))

end Sys2Proof.Machine
end

