-- ==== Sys2Proof/Machine/Flags.lean ====
section
/-! DEFINITION. The arithmetic of the two additions and the one flag of the machine, the carry in `r[0xF]` (rules R12, R124, R125). -/

namespace Sys2Proof.Machine

/-- The 9-bit sum of two bytes, `zext_9(a) + zext_9(b)`, which does not wrap (rule R124). -/
def sum9 (a b : Byte) : BitVec 9 := a.setWidth 9 + b.setWidth 9

/-- Bits 7:0 of the sum: addition modulo 256 (rules R111, R124). -/
def sum8 (a b : Byte) : Byte := (sum9 a b).extractLsb' 0 8

/-- The flag value of ADD.REG, `zext_8(s[8])`: the whole register becomes 0x01 or 0x00 (rule R124, decision D24). -/
def carryFlag (a b : Byte) : Byte := ((sum9 a b).extractLsb' 8 1).setWidth 8

/-- The flag write: `r[0xF] <- v` (rule R12). -/
def State.writeFlag (s : State) (v : Byte) : State := s.writeReg Config.flagReg v

end Sys2Proof.Machine
end

