-- ==== Sys2Proof/Machine/Immediate.lean ====
section
/-! DEFINITION. The register-immediate instructions (43_immediate.md). -/

namespace Sys2Proof.Machine

/-- LOAD.IMM rX, kk (rule R110). -/
def execLoadImm (x : RegIdx) (kk : Byte) (s : State) : Host.Outcome State Fault Refusal := .next (s.writeReg x kk)

/-- ADD.IMM rX, kk (rule R111): modulo 256, with no flag update; for x = 0xF the flag register is the plain destination
(90_conflicts.md C2, log 7). -/
def execAddImm (x : RegIdx) (kk : Byte) (s : State) : Host.Outcome State Fault Refusal :=
  .next (s.applyToReg sum8 x (.imm kk))

end Sys2Proof.Machine
end

