-- ==== Sys2Proof/Machine/RegisterAlu.lean ====
section
/-! DEFINITION. The register-register family, `op_class` 8 (44_register_alu.md). Both sources are read before anything is
written. -/

namespace Sys2Proof.Machine

/-- LOAD.REG rX, rY (rule R120). -/
def execLoadReg (x y : RegIdx) (s : State) : Host.Outcome State Fault Refusal := .next (s.writeReg x (s.reg y))

/-- OR rX, rY (rule R121): the flag is not written. -/
def execOrReg (x y : RegIdx) (s : State) : Host.Outcome State Fault Refusal :=
  .next (s.applyToReg (· ||| ·) x (.reg y))

/-- AND rX, rY (rule R122): the flag is not written. -/
def execAndReg (x y : RegIdx) (s : State) : Host.Outcome State Fault Refusal :=
  .next (s.applyToReg (· &&& ·) x (.reg y))

/-- XOR rX, rY (rule R123): the flag is not written. -/
def execXorReg (x y : RegIdx) (s : State) : Host.Outcome State Fault Refusal :=
  .next (s.applyToReg (· ^^^ ·) x (.reg y))

/-- ADD.REG rX, rY (rule R124): the sum goes to `r[x]`, then the carry to `r[0xF]`, last, so that it survives when
x = 0xF (90_conflicts.md C3, decision D8, log 7). -/
def execAddReg (x y : RegIdx) (s : State) : Host.Outcome State Fault Refusal :=
  .next ((s.applyToReg sum8 x (.reg y)).writeFlag (carryFlag (s.reg x) (s.reg y)))

end Sys2Proof.Machine
end

