-- ==== Sys2Proof/Machine/Skip.lean ====
section
/-! DEFINITION. The conditional skips (42_conditional_skip.md). On entry `pc` is the instruction's own address + 2, so a taken
skip lands 4 bytes after it (rule R103). -/

namespace Sys2Proof.Machine

/-- SKIP.EQ.IMM rX, kk (rule R100). -/
def execSkipEqImm (x : RegIdx) (kk : Byte) (s : State) : Host.Outcome State Fault Refusal :=
  .next (s.skipIf (s.regEquals x (.imm kk)))

/-- SKIP.NE.IMM rX, kk (rule R101). -/
def execSkipNeImm (x : RegIdx) (kk : Byte) (s : State) : Host.Outcome State Fault Refusal :=
  .next (s.skipIf (!s.regEquals x (.imm kk)))

/-- SKIP.EQ.REG rX, rY (rule R102). -/
def execSkipEqReg (x y : RegIdx) (s : State) : Host.Outcome State Fault Refusal :=
  .next (s.skipIf (s.regEquals x (.reg y)))

end Sys2Proof.Machine
end

