-- ==== Sys2Proof/Machine/Step.lean ====
section
/-! DEFINITION. One step of the run loop (rules R70 to R76, R80). -/

namespace Sys2Proof.Machine

/-- The step: outside FETCHING it changes nothing (rule R71); a refused fetch raises OutOfBoundsFetch with `pc` and no
advance (rule R72, decision D5); otherwise `pc` advances by 2 (rule R73) and the decoded instruction runs, or the default
arm raises UnimplementedOpcode with the word (rule R76). It always answers a next state. -/
def step (s : State) : Host.Outcome State Fault Refusal :=
  match s.runState with
  | .halted => .next s
  | .faulted => .next s
  | .fetching =>
    match s.fetch with
    | none => .next (s.raise .outOfBoundsFetch s.pc)
    | some iw =>
      match decode iw with
      | .ok i => exec i s.advancePc
      | .error _ => .next (s.advancePc.raise .unimplementedOpcode iw)

/-- `s` with a table row's word stored at the program counter, high byte first (rules R32, R50), where a fetch there is in
bounds. It changes nothing else: a state that is not FETCHING, or whose `pc` is above 0xFFE, fetches nothing whatever
memory holds (log 12). -/
def State.withFetchWord (s : State) (nbits w : Nat) : State :=
  if s.pc.toNat + 1 < Config.memSize then
    (s.writeMem s.pc.toNat (highByte (tableWord nbits w))).writeMem (s.pc.toNat + 1) (lowByte (tableWord nbits w))
  else s

end Sys2Proof.Machine
end

