-- ==== Sys2Proof/Machine/HostOps.lean ====
section
/-! DEFINITION. What the outside world can do to the machine: the host operations of rule R163, the write window of rule R164,
the run loop of rule R77 under the host's step budget (rule R169), and the signal-level view of rule R165. -/

namespace Sys2Proof.Machine

/-! ## The run loop -/

/-- Rule R77 under a step budget (rule R169): at most `n` steps, stopping as soon as the machine is not FETCHING. -/
def runFor : Nat → State → Host.Outcome State Fault Refusal
  | 0, s => .next s
  | n + 1, s =>
    match s.runState with
    | .fetching =>
      match step s with
      | .next t => runFor n t
      | .fault r => .fault r
      | .refused r => .refused r
    | _ => .next s

/-! ## The host's operations -/

/-- The operations of rule R163, and no others. `run` carries the host's step budget (rule R169). -/
inductive HostOp where
  | reset
  | writeMem (a : Nat) (b : Byte)
  | writeReg (i : RegIdx) (b : Byte)
  | step
  | run (budget : Nat)
  | observe
  deriving DecidableEq, Repr

/-- The address of a memory write must exist: "`0 <= a <= 0xFFF`" (rule R163). -/
def HostOp.wellFormed : HostOp → Bool
  | .reset => true
  | .writeMem a _ => decide (a < Config.memSize)
  | .writeReg _ _ => true
  | .step => true
  | .run _ => true
  | .observe => true

/-- The operations that rule R164's history form calls writes, and that have to stand before all others. -/
def HostOp.isWrite : HostOp → Bool
  | .reset => false
  | .writeMem _ _ => true
  | .writeReg _ _ => true
  | .step => false
  | .run _ => false
  | .observe => false

/-- The machine together with the one fact about its history that the host interface needs: has a Step, a Run or an Observe
come since the last reset? It is no state of the machine (rule R10), and no step reads it. -/
structure Session where
  core : State
  windowClosed : Bool
  deriving DecidableEq, Repr

/-- A session right after construction (rule R160). -/
def Session.fresh : Session := ⟨State.reset, false⟩

/-- A host write: only between a reset and the first Step, Run or Observe (rule R164, decision D11; log 5). -/
def Session.hostWrite (ss : Session) (t : State) : Host.Outcome Session Fault Refusal :=
  if ss.windowClosed then .refused .writeWindowClosed else .next { ss with core := t }

/-- What a Step or a Run leaves: the write window is closed (rule R164), after a Run with a budget of 0 too (log 15). -/
def Session.advanced (o : Host.Outcome State Fault Refusal) : Host.Outcome Session Fault Refusal :=
  match o with
  | .next t => .next ⟨t, true⟩
  | .fault r => .fault r
  | .refused r => .refused r

/-- One host operation (rule R163). Observe changes nothing of the machine: what it reads is `Session.core`, all of rule R10's
tuple (rule R25). Like Step and Run it closes the write window, since in the history form of rule R164 no write follows it. -/
def HostOp.apply (op : HostOp) (ss : Session) : Host.Outcome Session Fault Refusal :=
  match op with
  | .reset => .next .fresh
  | .writeMem a b => if (HostOp.writeMem a b).wellFormed then ss.hostWrite (ss.core.writeMem a b) else .fault (.noSuchByte a)
  | .writeReg i b => ss.hostWrite (ss.core.writeReg i b)
  | .step => Session.advanced (Sys2Proof.Machine.step ss.core)
  | .run budget => Session.advanced (runFor budget ss.core)
  | .observe => .next { ss with windowClosed := true }

/-- A history of host operations, stopping at the first that has no meaning (rule R164). -/
def applyAll : List HostOp → Session → Host.Outcome Session Fault Refusal
  | [], ss => .next ss
  | op :: ops, ss =>
    match op.apply ss with
    | .next ss' => applyAll ops ss'
    | .fault r => .fault r
    | .refused r => .refused r

/-! ## The signal-level view (rule R165, decision D21; log 9) -/

/-- The numeric code of the run state (rule R21). -/
def RunState.code : RunState → BitVec 2
  | .fetching => 0#2
  | .halted => 1#2
  | .faulted => 2#2

/-- The numeric code of the fault kind (rule R130). -/
def FaultKind.code : FaultKind → BitVec 3
  | .none => 0#3
  | .stackOverflow => 1#3
  | .stackUnderflow => 2#3
  | .unimplementedOpcode => 3#3
  | .outOfBoundsFetch => 4#3

/-- The output ports that show state (rule R165). The port `mem_addr` carries `State.portAddresses` during a step. -/
structure Outputs where
  runState  : BitVec 2
  faultKind : BitVec 3
  faultInfo : BitVec 16
  dbgPc     : BitVec 16
  dbgSp     : BitVec 5
  dbgReg    : Vector (BitVec 8) 16
  dbgStack  : Vector (BitVec 16) 16
  deriving DecidableEq, Repr

/-- What the output ports show of a state (rule R165). -/
def State.outputs (s : State) : Outputs where
  runState := s.runState.code
  faultKind := s.fault.kind.code
  faultInfo := s.fault.info
  dbgPc := s.pc
  dbgSp := BitVec.ofNat 5 s.sp.val
  dbgReg := s.regs
  dbgStack := s.stack

/-- The input ports that ask for something (rule R165): `rst`, `step`, and `reg_we` with its index and data. -/
inductive Signal where
  | rst
  | step
  | regWrite (idx : BitVec 4) (wdata : BitVec 8)
  deriving DecidableEq, Repr

/-- The host operation a signal stands for (rule R165). -/
def Signal.toOp : Signal → HostOp
  | .rst => .reset
  | .step => .step
  | .regWrite idx wdata => .writeReg idx.toFin wdata

end Sys2Proof.Machine
end

