-- ==== Sys2Proof/Machine/Listing.lean ====
section
/-! DEFINITION. Rule R80's listing of the whole step, transcribed line by line on the raw word, with its own field
extraction and its own order of tests. It is a second description of the step for statements to compare `step` with; the
machine does not use it. -/

namespace Sys2Proof.Machine

/-- The nibble of a word `n` bits up, as a register index. -/
def listingNibble (iw : Word) (n : Nat) : RegIdx := Fin.ofNat 16 (iw.toNat / 2 ^ n)

/-- Rule R80 from the line `if iw == 0x0000` on, with `pc` already advanced. -/
def listingExecute (iw : Word) (s : State) : State :=
  let x := listingNibble iw 8
  let y := listingNibble iw 4
  let kk : Byte := BitVec.ofNat 8 iw.toNat
  let addr : Word := iw &&& 0x0FFF#16
  if iw = 0x0000#16 then { s with runState := .halted }
  else if iw = 0x00EE#16 then
    if s.sp = 0 then { s with runState := .faulted, fault := ⟨.stackUnderflow, iw⟩ }
    else { s with sp := Fin.ofNat 17 (s.sp.val - 1), pc := s.stack[s.sp.val - 1]?.getD 0#16 }
  else if iw &&& 0xF000#16 = 0x1000#16 then { s with pc := addr }
  else if iw &&& 0xF000#16 = 0x2000#16 then
    if s.sp = 16 then { s with runState := .faulted, fault := ⟨.stackOverflow, iw⟩ }
    else { s with stack := s.stack.setIfInBounds s.sp.val s.pc, sp := Fin.ofNat 17 (s.sp.val + 1), pc := addr }
  else if iw &&& 0xF000#16 = 0x3000#16 then
    if s.regs[x] = kk then { s with pc := s.pc + 2#16 } else s
  else if iw &&& 0xF000#16 = 0x4000#16 then
    if s.regs[x] ≠ kk then { s with pc := s.pc + 2#16 } else s
  else if iw &&& 0xF00F#16 = 0x5000#16 then
    if s.regs[x] = s.regs[y] then { s with pc := s.pc + 2#16 } else s
  else if iw &&& 0xF000#16 = 0x6000#16 then { s with regs := s.regs.set x kk }
  else if iw &&& 0xF000#16 = 0x7000#16 then { s with regs := s.regs.set x (s.regs[x] + kk) }
  else if iw &&& 0xF00F#16 = 0x8000#16 then { s with regs := s.regs.set x s.regs[y] }
  else if iw &&& 0xF00F#16 = 0x8001#16 then { s with regs := s.regs.set x (s.regs[x] ||| s.regs[y]) }
  else if iw &&& 0xF00F#16 = 0x8002#16 then { s with regs := s.regs.set x (s.regs[x] &&& s.regs[y]) }
  else if iw &&& 0xF00F#16 = 0x8003#16 then { s with regs := s.regs.set x (s.regs[x] ^^^ s.regs[y]) }
  else if iw &&& 0xF00F#16 = 0x8004#16 then
    let sum : BitVec 9 := s.regs[x].setWidth 9 + s.regs[y].setWidth 9
    { s with regs := (s.regs.set x (sum.setWidth 8)).set 15 ((sum >>> 8).setWidth 8) }
  else { s with runState := .faulted, fault := ⟨.unimplementedOpcode, iw⟩ }

/-- Rule R80, `Step`: "a total function from state to state". -/
def listingStep (s : State) : State :=
  if s.runState ≠ .fetching then s
  else if s.pc.toNat + 1 > 0xFFF then { s with runState := .faulted, fault := ⟨.outOfBoundsFetch, s.pc⟩ }
  else listingExecute (s.mem.read s.pc.toNat ++ s.mem.read (s.pc.toNat + 1)) { s with pc := s.pc + 2#16 }

end Sys2Proof.Machine
end

