-- ==== Sys2Proof/Safety.lean ====
section
/-! DEFINITION. The terms statements about runs use: what a step leaves alone, which registers an instruction reads and writes
(rule R13), how a run ends (rule R170), and the invariant of the reachable states. -/

namespace Sys2Proof.Machine

/-! ## Frames (rule R7) -/

/-- Every general register but those listed is as before; the flag register is among the registers (rule R12). -/
def SameRegsExcept (written : List RegIdx) (s t : State) : Prop := ∀ j : RegIdx, j ∉ written → t.reg j = s.reg j

/-- The call stack is as before: every slot, dead ones too, and the stack pointer. -/
def SameStack (s t : State) : Prop := (∀ k : Fin 16, t.slot k = s.slot k) ∧ t.sp = s.sp

/-- Every byte of memory reads as before. -/
def SameMemory (s t : State) : Prop := ∀ a : Nat, t.mem.read a = s.mem.read a

/-- The run-loop state and the fault record are as before. -/
def SameRunState (s t : State) : Prop := t.runState = s.runState ∧ t.fault = s.fault

/-! ## Which registers an instruction reads and writes (the table of rule R13) -/

/-- The column "reads" of rule R13. -/
def readsOf : Instr → List RegIdx
  | .halt => []
  | .ret => []
  | .jmp _ => []
  | .call _ => []
  | .skipEqImm x _ => [x]
  | .skipNeImm x _ => [x]
  | .skipEqReg x y => [x, y]
  | .loadImm _ _ => []
  | .addImm x _ => [x]
  | .loadReg _ y => [y]
  | .orReg x y => [x, y]
  | .andReg x y => [x, y]
  | .xorReg x y => [x, y]
  | .addReg x y => [x, y]

/-- The column "writes" of rule R13. -/
def writesOf : Instr → List RegIdx
  | .halt => []
  | .ret => []
  | .jmp _ => []
  | .call _ => []
  | .skipEqImm _ _ => []
  | .skipNeImm _ _ => []
  | .skipEqReg _ _ => []
  | .loadImm x _ => [x]
  | .addImm x _ => [x]
  | .loadReg x _ => [x]
  | .orReg x _ => [x]
  | .andReg x _ => [x]
  | .xorReg x _ => [x]
  | .addReg x _ => [x, 0xF]

/-! ## How a run ends (rule R170) -/

/-- A run has ended when the machine is HALTED or FAULTED. -/
def State.ended (s : State) : Prop := s.runState = .halted ∨ s.runState = .faulted

/-- It ended cleanly only if HALTED. -/
def State.endedCleanly (s : State) : Prop := s.runState = .halted

/-- The whole run loop of rule R77: from `s` the run ends in `t`, under some budget (a run need not end). -/
def State.RunsTo (s t : State) : Prop := t.ended ∧ ∃ n : Nat, runFor n s = .next t

/-- A sequence of CALL routines, one after the other, each on the state the one before it left. -/
def callAll : List Addr → State → Host.Outcome State Fault Refusal
  | [], s => .next s
  | addr :: addrs, s =>
    match exec (.call addr) s with
    | .next t => callAll addrs t
    | .fault r => .fault r
    | .refused r => .refused r

/-- The word the next step will fetch is `iw`, and that step is taken. -/
def State.Fetches (s : State) (iw : Word) : Prop := s.runState = .fetching ∧ s.fetch = some iw

/-! ## The invariant of the reachable states -/

/-- Rule R15's bound: no reachable `pc` is above 0x1002. -/
abbrev State.PcBounded (s : State) : Prop := s.pc.toNat ≤ 0x1002

/-- Every live frame holds a value saved by a CALL, at most 0x1000 (rule R15). -/
abbrev State.FramesBounded (s : State) : Prop := ∀ k : Fin 16, k.val < s.sp.val → (s.slot k).toNat ≤ 0x1000

/-- The fault record is idle unless FAULTED (rule R22), and in FAULTED it is one of the four causes of rule R130 with the
state that cause leaves (rules R131 to R134). -/
abbrev State.FaultExplained (s : State) : Prop :=
  (s.runState ≠ .faulted → s.fault = FaultRecord.idle) ∧
  (s.runState = .faulted →
    (s.fault.kind = .stackOverflow ∧ s.sp.val = 16 ∧ s.fault.info.toNat / 0x1000 = 2) ∨
    (s.fault.kind = .stackUnderflow ∧ s.sp.val = 0 ∧ s.fault.info = 0x00EE#16) ∨
    (s.fault.kind = .unimplementedOpcode ∧ wellFormedWord s.fault.info = false) ∨
    (s.fault.kind = .outOfBoundsFetch ∧ s.fault.info = s.pc ∧ 0xFFF ≤ s.pc.toNat))

/-- The invariant: canonical memory, bounded `pc` and live frames, a fault record that explains the run state. -/
abbrev State.Inv (s : State) : Prop := s.mem.wf = true ∧ s.PcBounded ∧ s.FramesBounded ∧ s.FaultExplained

end Sys2Proof.Machine
end

