-- ==== Sys2Proof/Certificates/Slice0/Obligations.lean ====
section
/-! DEFINITION. The statements for the provers. Each docstring names the rules of spec/ it formalises; where a clause rests on a
decision the spec marks as its own, or on an inference it marks as derived, the docstring says so. -/

open Sys2Proof Sys2Proof.Machine

/-! ## Encoding (30_encoding.md) -/

/-- Words written out in 95_test_vectors.md §2.1 decode, from their bytes in memory order, to what that table says. -/
def Obligations.ListedBytesDecode : Prop :=
  decodeBytes [0x00#8, 0x00#8] = .ok (.halt, []) ∧
  decodeBytes [0x12#8, 0x22#8] = .ok (.jmp 0x222#12, []) ∧
  decodeBytes [0x3A#8, 0x7F#8] = .ok (.skipEqImm 0xA 0x7F#8, []) ∧
  decodeBytes [0x6E#8, 0x01#8] = .ok (.loadImm 0xE 0x01#8, []) ∧
  decodeBytes [0x89#8, 0xA4#8] = .ok (.addReg 9 0xA, []) ∧
  decodeBytes [0x89#8, 0xA5#8] = .error (.unimplemented 0x89A5#16)

/-- Decode and encode agree: from the two bytes of any instruction, high byte first (rule R50), whatever follows them, the
decoder reads that instruction with every operand, and leaves what follows (rules R51, R52, R54, R62). -/
def Obligations.DecodeInvertsEncode : Prop :=
  ∀ (i : Instr) (rest : List Byte), decodeBytes (encodeBytes i ++ rest) = .ok (i, rest)

/-- Each implemented word has one meaning: an instruction read from a word encodes to that word (rules R54, R62). -/
def Obligations.EncodeInvertsDecode : Prop :=
  ∀ (iw : Word) (i : Instr), decode iw = .ok i → encode i = iw

/-- Rule R54: 14 rows; a word is decoded to an instruction of a row exactly when its bits under the row's mask are the row's
match; no word is in two rows; a word in no row takes the default arm. -/
def Obligations.OpcodeTableIsTheDecode : Prop :=
  opcodeTable.length = 14 ∧
  (∀ (iw : Word) (row : OpcodeRow), row ∈ opcodeTable →
    (iw &&& row.mask = row.pattern ↔ ∃ i, decode iw = .ok i ∧ i.mnemonic = row.mnemonic)) ∧
  (∀ (iw : Word) (row row' : OpcodeRow), row ∈ opcodeTable → row' ∈ opcodeTable →
    iw &&& row.mask = row.pattern → iw &&& row'.mask = row'.pattern → row = row') ∧
  (∀ iw : Word, (∀ row ∈ opcodeTable, iw &&& row.mask ≠ row.pattern) → decode iw = .error (.unimplemented iw))

/-- The unimplemented space, range by range (rules R55, R56, R57). That 0x5xy1 to 0x5xyF are in it is the spec's own
decision D4. -/
def Obligations.UnimplementedSpaceExactly : Prop :=
  ∀ iw : Word, decode iw = .error (.unimplemented iw) ↔
    (0x0001 ≤ iw.toNat ∧ iw.toNat ≤ 0x00ED) ∨ (0x00EF ≤ iw.toNat ∧ iw.toNat ≤ 0x0FFF) ∨
    (iw.toNat / 0x1000 = 5 ∧ iw.toNat % 0x10 ≠ 0) ∨ (iw.toNat / 0x1000 = 8 ∧ 5 ≤ iw.toNat % 0x10) ∨
    0x9000 ≤ iw.toNat

/-! ## Reset (10_state.md, 70_reset_and_hazards.md) -/

/-- The reset values of rule R24; that of the fault record is the spec's own decision D19. -/
def Obligations.ResetValues : Prop :=
  (∀ x : RegIdx, State.reset.reg x = 0x00#8) ∧ State.reset.pc = 0x0000#16 ∧
  (∀ k : Fin 16, State.reset.slot k = 0x0000#16) ∧ State.reset.sp = 0 ∧
  (∀ a : Nat, State.reset.mem.read a = 0x00#8) ∧ State.reset.runState = .fetching ∧
  State.reset.fault = ⟨.none, 0x0000#16⟩

/-- A machine run straight after reset, with nothing loaded, halts on its first step with `pc = 0x0002` (the inference at the
end of rule R24). -/
def Obligations.UnloadedMachineHaltsAtOnce : Prop :=
  step State.reset = .next { State.reset with pc := 0x0002#16, runState := .halted }

/-- Rule R161: whatever came before it, in any state, a reset gives the fresh machine, and what follows goes on from there;
and a reset is the only exit from HALTED and FAULTED: no other host operation changes the run state of an ended machine. -/
def Obligations.ResetForgetsEverything : Prop :=
  (∀ (before after : List HostOp) (ss ss' : Session), applyAll before ss = .next ss' →
    applyAll (before ++ .reset :: after) ss = applyAll after ⟨State.reset, false⟩) ∧
  (∀ (op : HostOp) (ss ss' : Session), ss.core.ended → op ≠ .reset → op.apply ss = .next ss' →
    ss'.core.runState = ss.core.runState)

/-! ## The step (40_fetch_decode_dispatch.md) -/

/-- Every step is the transcribed listing of rule R80, in every state (the listing's `info` of the stack faults and its `pc`
after a fault are decisions D5 and D6, its dead slots D3). -/
def Obligations.StepFollowsTheListing : Prop :=
  ∀ s : State, step s = .next (listingStep s)

/-- In FETCHING, with two bytes at `pc` that exist and decode, high byte first, to `i`, the step is `exec i` of the state
with `pc` advanced by 2 (rules R32, R70, R72, R73, R75). -/
def Obligations.StepRunsDecodedInstruction : Prop :=
  ∀ (s : State) (i : Instr), s.runState = .fetching → s.pc.toNat ≤ 0xFFE →
    decode (s.mem.read s.pc.toNat ++ s.mem.read (s.pc.toNat + 1)) = .ok i →
    step s = exec i { s with pc := s.pc + 2#16 }

/-- A fetch whose second byte would lie outside memory raises OutOfBoundsFetch with `pc`; `pc` does not advance and nothing
else changes (rules R34, R72, R134; the unchanged `pc` and the `info` are decision D5). -/
def Obligations.OutOfBoundsFetchFaults : Prop :=
  ∀ s : State, s.runState = .fetching → 0xFFF ≤ s.pc.toNat →
    step s = .next { s with runState := .faulted, fault := ⟨.outOfBoundsFetch, s.pc⟩ }

/-- A fetched word that is in no row of the opcode table raises UnimplementedOpcode with the word, and changes nothing else
but the advanced `pc` (rules R57, R76, R133; the advanced `pc` is decision D6). -/
def Obligations.UnimplementedWordFaults : Prop :=
  ∀ (s : State) (iw : Word), s.Fetches iw → (∀ row ∈ opcodeTable, iw &&& row.mask ≠ row.pattern) →
    step s = .next { s with pc := s.pc + 2#16, runState := .faulted, fault := ⟨.unimplementedOpcode, iw⟩ }

/-- The transitions of the run loop (rules R71, R77; the terminal states' self-loops are decision D18): every step answers a
next state; from FETCHING it is HALTED exactly by the word 0x0000, FAULTED exactly by one of the four causes, and FETCHING
otherwise; a state that is not FETCHING keeps its run state. -/
def Obligations.RunLoopTransitions : Prop :=
  ∀ s : State, ∃ t, step s = .next t ∧
    (s.runState = .fetching →
      (t.runState = .halted ↔ s.fetch = some 0x0000#16) ∧
      (t.runState = .faulted ↔
        s.fetch = none ∨
        ∃ iw, s.fetch = some iw ∧
          (wellFormedWord iw = false ∨ (iw.toNat / 0x1000 = 2 ∧ s.sp.val = 16) ∨ (iw = 0x00EE#16 ∧ s.sp.val = 0)))) ∧
    (s.runState ≠ .fetching → t.runState = s.runState)

/-- HALTED and FAULTED hold their state: no step and no run of any length changes anything, and no byte is read
(rules R71, R140, R146; decision D18). -/
def Obligations.EndedMachineHoldsItsState : Prop :=
  ∀ s : State, s.ended → step s = .next s ∧ (∀ n : Nat, runFor n s = .next s) ∧ s.portAddresses = []

/-- Rule R79: an execution routine reads neither memory nor the run state nor the fault record, and writes no memory; only
HALT writes HALTED; only a raise, of CALL on a full stack or RET on an empty one, writes FAULTED and the record. Two
executions are compared whose memory, run state and fault record may all differ: they leave the same registers, `pc` and
stack, HALT halts in both, a raise leaves the same record in both, and every other routine passes each one's own run state
and record through. -/
def Obligations.RoutinesTouchOnlyTheirState : Prop :=
  ∀ (i : Instr) (s : State) (m : Memory) (r : RunState) (f : FaultRecord), ∃ t t',
    exec i s = .next t ∧ exec i { s with mem := m, runState := r, fault := f } = .next t' ∧
    t'.regs = t.regs ∧ t'.pc = t.pc ∧ t'.stack = t.stack ∧ t'.sp = t.sp ∧ t.mem = s.mem ∧ t'.mem = m ∧
    (i = .halt → t.runState = .halted ∧ t'.runState = .halted ∧ t.fault = s.fault ∧ t'.fault = f) ∧
    (∀ addr, i = .call addr → s.sp.val = 16 →
      t.runState = .faulted ∧ t'.runState = .faulted ∧ t.fault.kind = .stackOverflow ∧ t'.fault = t.fault) ∧
    (i = .ret → s.sp.val = 0 →
      t.runState = .faulted ∧ t'.runState = .faulted ∧ t.fault.kind = .stackUnderflow ∧ t'.fault = t.fault) ∧
    (i ≠ .halt → (∀ addr, i = .call addr → s.sp.val < 16) → (i = .ret → 0 < s.sp.val) →
      t.runState = s.runState ∧ t'.runState = r ∧ t.fault = s.fault ∧ t'.fault = f)

/-! ## Memory and the fetch port (20_memory.md) -/

/-- Rule R35: a step reads two bytes for a successful fetch, at `pc` and `pc + 1`, and none otherwise; the word is those two
bytes, high byte first; and no other byte matters: with a memory that agrees on the bytes read, the step leaves the same
state but for that memory. -/
def Obligations.StepReadsExactlyThePortBytes : Prop :=
  ∀ s : State,
    ((∃ a : Addr, s.portAddresses = [a, a + 1#12] ∧ a.toNat = s.pc.toNat ∧ (a + 1#12).toNat = s.pc.toNat + 1 ∧
        s.Fetches (s.portRead a ++ s.portRead (a + 1#12))) ∨
      (s.portAddresses = [] ∧ ∀ iw, ¬ s.Fetches iw)) ∧
    ∀ (m : Memory) (t : State), (∀ a ∈ s.portAddresses, m.read a.toNat = s.mem.read a.toNat) →
      step s = .next t → step { s with mem := m } = .next { t with mem := m }

/-- The core never writes memory: after any number of steps every byte reads as before (rules R31, R38). -/
def Obligations.MemoryConstantDuringRun : Prop :=
  ∀ (n : Nat) (s t : State), runFor n s = .next t → ∀ a : Nat, t.mem.read a = s.mem.read a

/-! ## Control flow (41_control_flow.md) -/

/-- HALT (rule R90): run_state becomes HALTED; registers, `pc` (already advanced), stack, memory and the fault record are
as before (that it writes nothing else is decision D23). -/
def Obligations.HaltStopsTheRunLoop : Prop :=
  decode 0x0000#16 = .ok .halt ∧
  ∀ s : State, ∃ t, exec .halt s = .next t ∧ t.runState = .halted ∧ t.fault = s.fault ∧ t.pc = s.pc ∧
    SameRegsExcept [] s t ∧ SameStack s t ∧ SameMemory s t

/-- RET (rule R91). With a live frame: `sp` drops by one, `pc` becomes the slot at the new `sp`, no slot changes (decision
D3). On an empty stack: StackUnderflow with 0x00EE, and nothing else changes (decision D6). -/
def Obligations.RetPopsOrUnderflows : Prop :=
  decode 0x00EE#16 = .ok .ret ∧
  (∀ (s : State) (k : Fin 16), s.sp.val = k.val + 1 → ∃ t, exec .ret s = .next t ∧
    t.sp.val = k.val ∧ t.pc = s.slot k ∧ (∀ j : Fin 16, t.slot j = s.slot j) ∧
    SameRegsExcept [] s t ∧ SameMemory s t ∧ SameRunState s t) ∧
  (∀ s : State, s.sp.val = 0 →
    exec .ret s = .next { s with runState := .faulted, fault := ⟨.stackUnderflow, 0x00EE#16⟩ })

/-- JMP (rule R92): `pc` becomes the zero-extended address, whatever it is; nothing else changes; the only target at which
the next fetch is refused is 0xFFF. -/
def Obligations.JmpSetsPc : Prop :=
  ∀ (addr : Addr) (s : State),
    decode (BitVec.ofNat 16 (0x1000 + addr.toNat)) = .ok (.jmp addr) ∧
    ∃ t, exec (.jmp addr) s = .next t ∧ t.pc.toNat = addr.toNat ∧ (t.fetch = none ↔ addr = 0xFFF#12) ∧
      SameRegsExcept [] s t ∧ SameStack s t ∧ SameMemory s t ∧ SameRunState s t

/-- CALL (rule R93). Below 16 frames: the slot at `sp` gets the advanced `pc`, every other slot is as before, `sp` rises by
one, `pc` becomes the address. On a full stack: StackOverflow with the word, and nothing else changes, `pc` not set to the
address (decision D6). -/
def Obligations.CallPushesOrOverflows : Prop :=
  ∀ (addr : Addr) (s : State),
    decode (BitVec.ofNat 16 (0x2000 + addr.toNat)) = .ok (.call addr) ∧
    (s.sp.val < 16 → ∃ t, exec (.call addr) s = .next t ∧
      (∀ k : Fin 16, t.slot k = if k.val = s.sp.val then s.pc else s.slot k) ∧
      t.sp.val = s.sp.val + 1 ∧ t.pc.toNat = addr.toNat ∧
      SameRegsExcept [] s t ∧ SameMemory s t ∧ SameRunState s t) ∧
    (s.sp.val = 16 → exec (.call addr) s =
      .next { s with runState := .faulted, fault := ⟨.stackOverflow, BitVec.ofNat 16 (0x2000 + addr.toNat)⟩ })

/-- The stack holds 16 frames and no more (rules R16, R93, R131; property S4 of 95_test_vectors.md): nested CALLs succeed, each
with one more frame, as long as there are at most 16 frames in all, and the one after that faults with StackOverflow and leaves
`sp` at 16. -/
def Obligations.SixteenNestedCallsFit : Prop :=
  ∀ (targets : List Addr) (s : State),
    (s.sp.val + targets.length ≤ 16 → ∃ t, callAll targets s = .next t ∧ t.sp.val = s.sp.val + targets.length ∧
      SameRegsExcept [] s t ∧ SameMemory s t ∧ SameRunState s t) ∧
    (s.sp.val + targets.length = 17 → ∃ t, callAll targets s = .next t ∧ t.sp.val = 16 ∧
      t.runState = .faulted ∧ t.fault.kind = .stackOverflow)

/-- `sp` and the slots change only by CALL (with `sp < 16`) and RET (with `sp > 0`), in every step; a CALL at
`sp = 16` and a RET at `sp = 0` fault and leave `sp` as it was (rules R16, R17, R18; that RET leaves its slot is decision D3). -/
def Obligations.OnlyCallAndRetMoveTheStack : Prop :=
  (∀ s t : State, step s = .next t →
    (SameStack s t ∨
      (∃ iw, s.Fetches iw ∧ iw.toNat / 0x1000 = 2 ∧ s.sp.val < 16 ∧ t.sp.val = s.sp.val + 1 ∧
        ∀ k : Fin 16, t.slot k = if k.val = s.sp.val then s.pc + 2#16 else s.slot k) ∨
      (s.Fetches 0x00EE#16 ∧ 0 < s.sp.val ∧ t.sp.val + 1 = s.sp.val ∧ ∀ k : Fin 16, t.slot k = s.slot k))) ∧
  (∀ (s : State) (iw : Word), s.Fetches iw →
    (iw.toNat / 0x1000 = 2 ∧ s.sp.val = 16) ∨ (iw = 0x00EE#16 ∧ s.sp.val = 0) →
    ∃ t, step s = .next t ∧ t.runState = .faulted ∧ SameStack s t)

/-- Rule R94: after a CALL fetched from `A` at `sp = k`, run any number of steps during which `sp` stays above `k`; a RET
fetched there with `sp = k + 1` resumes at `A + 2` with `sp = k`. (R94 is an inference of the spec's from R91 and R93.) -/
def Obligations.ReturnResumesAfterTheCall : Prop :=
  ∀ (s t u : State) (iw : Word) (addr : Addr) (n : Nat),
    s.Fetches iw → decode iw = .ok (.call addr) → s.sp.val < 16 → step s = .next t →
    (∀ m, m ≤ n → ∀ v, runFor m t = .next v → s.sp.val < v.sp.val) →
    runFor n t = .next u → u.sp.val = s.sp.val + 1 → u.Fetches 0x00EE#16 →
    ∃ w, step u = .next w ∧ w.pc = s.pc + 2#16 ∧ w.sp = s.sp

/-! ## Conditional skips (42_conditional_skip.md) -/

/-- SKIP.EQ.IMM and SKIP.NE.IMM (rules R100, R101): `pc` moves 2 further exactly when the register equals, or differs from,
the immediate, so exactly one of the two skips; nothing else changes. -/
def Obligations.SkipImmComparesAllBits : Prop :=
  ∀ (x : RegIdx) (kk : Byte) (s : State),
    decode (BitVec.ofNat 16 (0x3000 + x.val * 0x100 + kk.toNat)) = .ok (.skipEqImm x kk) ∧
    decode (BitVec.ofNat 16 (0x4000 + x.val * 0x100 + kk.toNat)) = .ok (.skipNeImm x kk) ∧
    ∃ t u, exec (.skipEqImm x kk) s = .next t ∧ exec (.skipNeImm x kk) s = .next u ∧
      t.pc = (if s.reg x = kk then s.pc + 2#16 else s.pc) ∧
      u.pc = (if s.reg x = kk then s.pc else s.pc + 2#16) ∧
      SameRegsExcept [] s t ∧ SameStack s t ∧ SameMemory s t ∧ SameRunState s t ∧
      SameRegsExcept [] s u ∧ SameStack s u ∧ SameMemory s u ∧ SameRunState s u

/-- SKIP.EQ.REG (rule R102): `pc` moves 2 further exactly when the registers are equal, always when they are the same
register; nothing else changes. Its word has `op_minor` 0; that the other 15 are unimplemented is decision D4. -/
def Obligations.SkipEqRegComparesRegisters : Prop :=
  ∀ (x y : RegIdx) (s : State),
    decode (BitVec.ofNat 16 (0x5000 + x.val * 0x100 + y.val * 0x10)) = .ok (.skipEqReg x y) ∧
    (∃ t, exec (.skipEqReg x y) s = .next t ∧
      t.pc = (if s.reg x = s.reg y then s.pc + 2#16 else s.pc) ∧
      SameRegsExcept [] s t ∧ SameStack s t ∧ SameMemory s t ∧ SameRunState s t) ∧
    exec (.skipEqReg x x) s = .next { s with pc := s.pc + 2#16 }

/-- Rule R103, on whole steps: from its own address a skip goes on by 4 exactly when its condition holds and by 2 otherwise;
it never faults, and writes no register, no stack and no memory. -/
def Obligations.SkipsAdvanceByFourOrTwo : Prop :=
  ∀ (s : State) (iw : Word) (i : Instr) (condition : Prop), s.Fetches iw → decode iw = .ok i →
    ((∃ x kk, i = .skipEqImm x kk ∧ (condition ↔ s.reg x = kk)) ∨
      (∃ x kk, i = .skipNeImm x kk ∧ (condition ↔ s.reg x ≠ kk)) ∨
      (∃ x y, i = .skipEqReg x y ∧ (condition ↔ s.reg x = s.reg y))) →
    ∃ t, step s = .next t ∧
      (condition → t.pc.toNat = s.pc.toNat + 4) ∧ (¬ condition → t.pc.toNat = s.pc.toNat + 2) ∧
      SameRegsExcept [] s t ∧ SameStack s t ∧ SameMemory s t ∧ SameRunState s t

/-! ## Immediate operations (43_immediate.md) -/

/-- LOAD.IMM (rule R110): the register, the flag register included, becomes the immediate; nothing else changes. -/
def Obligations.LoadImmSetsRegister : Prop :=
  ∀ (x : RegIdx) (kk : Byte) (s : State),
    decode (BitVec.ofNat 16 (0x6000 + x.val * 0x100 + kk.toNat)) = .ok (.loadImm x kk) ∧
    ∃ t, exec (.loadImm x kk) s = .next t ∧ t.reg x = kk ∧ t.pc = s.pc ∧
      SameRegsExcept [x] s t ∧ SameStack s t ∧ SameMemory s t ∧ SameRunState s t

/-- ADD.IMM (rule R111): the register becomes the sum modulo 256, for x = 0xF too; no other register changes, so the flag
register is as before unless x = 0xF; nothing else changes. -/
def Obligations.AddImmWrapsWithoutFlag : Prop :=
  ∀ (x : RegIdx) (kk : Byte) (s : State),
    decode (BitVec.ofNat 16 (0x7000 + x.val * 0x100 + kk.toNat)) = .ok (.addImm x kk) ∧
    ∃ t, exec (.addImm x kk) s = .next t ∧ (t.reg x).toNat = ((s.reg x).toNat + kk.toNat) % 256 ∧
      (x ≠ 0xF → t.reg 0xF = s.reg 0xF) ∧ t.pc = s.pc ∧
      SameRegsExcept [x] s t ∧ SameStack s t ∧ SameMemory s t ∧ SameRunState s t

/-! ## Register-register family (44_register_alu.md) -/

/-- LOAD.REG (rule R120): the first register becomes a copy of the second; nothing else changes. -/
def Obligations.LoadRegCopies : Prop :=
  ∀ (x y : RegIdx) (s : State),
    decode (BitVec.ofNat 16 (0x8000 + x.val * 0x100 + y.val * 0x10)) = .ok (.loadReg x y) ∧
    ∃ t, exec (.loadReg x y) s = .next t ∧ t.reg x = s.reg y ∧ t.pc = s.pc ∧
      SameRegsExcept [x] s t ∧ SameStack s t ∧ SameMemory s t ∧ SameRunState s t

/-- OR, AND, XOR (rules R121, R122, R123): each bit of the destination is the or, the and, the exclusive or of the two
operands' bits; no other register, so no flag unless x = 0xF, and nothing else changes. -/
def Obligations.LogicalOpsActBitwise : Prop :=
  ∀ (x y : RegIdx) (s : State),
    decode (BitVec.ofNat 16 (0x8001 + x.val * 0x100 + y.val * 0x10)) = .ok (.orReg x y) ∧
    decode (BitVec.ofNat 16 (0x8002 + x.val * 0x100 + y.val * 0x10)) = .ok (.andReg x y) ∧
    decode (BitVec.ofNat 16 (0x8003 + x.val * 0x100 + y.val * 0x10)) = .ok (.xorReg x y) ∧
    ∃ t u v, exec (.orReg x y) s = .next t ∧ exec (.andReg x y) s = .next u ∧ exec (.xorReg x y) s = .next v ∧
      (∀ n : Nat, (t.reg x).getLsbD n = ((s.reg x).getLsbD n || (s.reg y).getLsbD n)) ∧
      (∀ n : Nat, (u.reg x).getLsbD n = ((s.reg x).getLsbD n && (s.reg y).getLsbD n)) ∧
      (∀ n : Nat, (v.reg x).getLsbD n = ((s.reg x).getLsbD n != (s.reg y).getLsbD n)) ∧
      t.pc = s.pc ∧ SameRegsExcept [x] s t ∧ SameStack s t ∧ SameMemory s t ∧ SameRunState s t ∧
      u.pc = s.pc ∧ SameRegsExcept [x] s u ∧ SameStack s u ∧ SameMemory s u ∧ SameRunState s u ∧
      v.pc = s.pc ∧ SameRegsExcept [x] s v ∧ SameStack s v ∧ SameMemory s v ∧ SameRunState s v

/-- ADD.REG (rule R124), for every pair of registers: the flag register ends as 1 if the old operands sum to 256 or more,
else 0, also when it is an operand or the destination; a destination other than 0xF ends as the sum modulo 256; nothing else
changes. (The order of the two writes is decision D8, the whole-register flag decision D24.) -/
def Obligations.AddRegWrapsAndSetsFlag : Prop :=
  ∀ (x y : RegIdx) (s : State),
    decode (BitVec.ofNat 16 (0x8004 + x.val * 0x100 + y.val * 0x10)) = .ok (.addReg x y) ∧
    ∃ t, exec (.addReg x y) s = .next t ∧
      t.reg 0xF = (if 256 ≤ (s.reg x).toNat + (s.reg y).toNat then 0x01#8 else 0x00#8) ∧
      (x ≠ 0xF → (t.reg x).toNat = ((s.reg x).toNat + (s.reg y).toNat) % 256) ∧ t.pc = s.pc ∧
      SameRegsExcept [x, 0xF] s t ∧ SameStack s t ∧ SameMemory s t ∧ SameRunState s t

/-- Rule R125: the two additions give the same destination for the same operands, and with the carry ADD.REG keeps, the sum
is whole: 256 times the flag plus the destination is the exact sum (the destination not being the flag register). -/
def Obligations.TwoAdditionsAgree : Prop :=
  ∀ (x y : RegIdx) (s : State), x ≠ 0xF → ∃ t u,
    exec (.addReg x y) s = .next t ∧ exec (.addImm x (s.reg y)) s = .next u ∧ t.reg x = u.reg x ∧
    256 * (t.reg 0xF).toNat + (t.reg x).toNat = (s.reg x).toNat + (s.reg y).toNat

/-- The table of rule R13: an instruction changes no register outside its column "writes"; what it writes, and everything else
it leaves in `pc`, the stack, the run state and the fault record, depends on no register outside its column "reads" (no
instruction writes memory); ADD.REG writes `r[x]`, then `r[0xF]`, so that for x = 0xF the flag is what remains (the order is
decision D8, the whole-register flag decision D24); a step that faults writes no register. -/
def Obligations.RegisterReadWriteTable : Prop :=
  (∀ (i : Instr) (s s' : State),
    (∀ j ∈ readsOf i, s'.reg j = s.reg j) → s'.pc = s.pc → s'.sp = s.sp → s'.stack = s.stack →
    s'.runState = s.runState → s'.fault = s.fault → ∃ t t',
    exec i s = .next t ∧ exec i s' = .next t' ∧
    SameRegsExcept (writesOf i) s t ∧ SameRegsExcept (writesOf i) s' t' ∧ (∀ j ∈ writesOf i, t'.reg j = t.reg j) ∧
    t'.pc = t.pc ∧ t'.sp = t.sp ∧ t'.stack = t.stack ∧ t'.runState = t.runState ∧ t'.fault = t.fault ∧
    SameMemory s t ∧ SameMemory s' t') ∧
  (∀ (x y : RegIdx) (s : State), ∃ t, exec (.addReg x y) s = .next t ∧
    ∀ j : RegIdx, t.reg j =
      if j = 0xF then (if 256 ≤ (s.reg x).toNat + (s.reg y).toNat then 0x01#8 else 0x00#8)
      else if j = x then s.reg x + s.reg y else s.reg j) ∧
  (∀ s t : State, step s = .next t → t.runState = .faulted → SameRegsExcept [] s t)

/-! ## Fatal conditions (60_exceptions.md) -/

/-- The table of rule R130: a step from FETCHING that faults records one of the four kinds, exactly under its condition, with
its `info` (the `info` of the stack faults is decision D6, that of OutOfBoundsFetch decision D5). -/
def Obligations.FaultRecordTellsTheCause : Prop :=
  ∀ s t : State, s.runState = .fetching → step s = .next t → ∀ info : Word,
    ((t.runState = .faulted ∧ t.fault = ⟨.stackOverflow, info⟩) ↔
      (s.fetch = some info ∧ info.toNat / 0x1000 = 2 ∧ s.sp.val = 16)) ∧
    ((t.runState = .faulted ∧ t.fault = ⟨.stackUnderflow, info⟩) ↔
      (s.fetch = some info ∧ info = 0x00EE#16 ∧ s.sp.val = 0)) ∧
    ((t.runState = .faulted ∧ t.fault = ⟨.unimplementedOpcode, info⟩) ↔
      (s.fetch = some info ∧ wellFormedWord info = false)) ∧
    ((t.runState = .faulted ∧ t.fault = ⟨.outOfBoundsFetch, info⟩) ↔ (info = s.pc ∧ 0xFFF ≤ s.pc.toNat)) ∧
    ¬ (t.runState = .faulted ∧ t.fault = ⟨.none, info⟩)

/-- Faults are precise (rule R139, an inference of the spec's): a step from FETCHING that faults leaves registers, stack and
memory as they were, and `pc` either unchanged, for OutOfBoundsFetch, or advanced by 2 (decisions D5, D6). -/
def Obligations.FaultsArePrecise : Prop :=
  ∀ s t : State, s.runState = .fetching → step s = .next t → t.runState = .faulted →
    SameRegsExcept [] s t ∧ SameStack s t ∧ SameMemory s t ∧
    t.pc = (if t.fault.kind = .outOfBoundsFetch then s.pc else s.pc + 2#16)

/-- A clean end (rules R141, R170): a run from FETCHING that reaches HALTED got there by a step that fetched 0x0000, and its
final state is the state before that step with `pc` two further and HALTED; the fault record is as at the start. -/
def Obligations.CleanRunEndsAtHalt : Prop :=
  ∀ (n : Nat) (s t : State), s.runState = .fetching → runFor n s = .next t → t.endedCleanly →
    t.fault = s.fault ∧
    ∃ (k : Nat) (u : State), k < n ∧ runFor k s = .next u ∧ u.Fetches 0x0000#16 ∧
      t = { u with pc := u.pc + 2#16, runState := .halted }

/-! ## The invariant of the reachable states -/

/-- The invariant of Safety.lean holds at reset. -/
def Obligations.ResetMeetsInvariant : Prop := State.reset.Inv

/-- Every step keeps the invariant: canonical memory, `pc` at most 0x1002, live frames at most 0x1000, and a fault record that
is idle unless FAULTED and then tells one of the four causes (rules R15, R22, R130 to R134). -/
def Obligations.StepKeepsInvariant : Prop :=
  ∀ s t : State, s.Inv → step s = .next t → t.Inv

/-- Every host operation keeps the invariant (rules R160, R163). -/
def Obligations.HostOpKeepsInvariant : Prop :=
  ∀ (op : HostOp) (ss ss' : Session), ss.core.Inv → op.apply ss = .next ss' → ss'.core.Inv

/-- In every state that any history of host operations reaches from construction, `pc <= 0x1002`, every live frame is at most
0x1000, and the fault record is idle unless FAULTED (rules R15, R22; R15's bound is an inference of the spec's). -/
def Obligations.ReachableStatesAreBounded : Prop :=
  ∀ (ops : List HostOp) (ss : Session), applyAll ops Session.fresh = .next ss →
    ss.core.pc.toNat ≤ 0x1002 ∧ (∀ k : Fin 16, k.val < ss.core.sp.val → (ss.core.slot k).toNat ≤ 0x1000) ∧
    (ss.core.runState ≠ .faulted → ss.core.fault = ⟨.none, 0x0000#16⟩)

/-! ## The host interface (70_reset_and_hazards.md) -/

/-- While the write window is open the host may write a byte of memory or a register, which then reads as written, and nothing else
changes: every other byte and register, `pc`, the stack, the run state and the fault record are as before (rule R163; that
the host can write nothing more is decision D10). -/
def Obligations.HostWritesBeforeTheRun : Prop :=
  ∀ (ss : Session) (b : Byte), ss.windowClosed = false → ss.core.mem.wf = true →
    (∀ a : Nat, a ≤ 0xFFF → ∃ ss', HostOp.apply (.writeMem a b) ss = .next ss' ∧ ss'.windowClosed = false ∧
      (∀ j : Nat, ss'.core.mem.read j = if j = a then b else ss.core.mem.read j) ∧
      SameRegsExcept [] ss.core ss'.core ∧ ss'.core.pc = ss.core.pc ∧ SameStack ss.core ss'.core ∧
      SameRunState ss.core ss'.core) ∧
    (∀ i : RegIdx, ∃ ss', HostOp.apply (.writeReg i b) ss = .next ss' ∧ ss'.windowClosed = false ∧
      ss'.core.reg i = b ∧ SameRegsExcept [i] ss.core ss'.core ∧ ss'.core.pc = ss.core.pc ∧
      SameMemory ss.core ss'.core ∧ SameStack ss.core ss'.core ∧ SameRunState ss.core ss'.core)

/-- The write window (rules R163, R164; the refusal is decision D11): a Step, a Run and an Observe close it, an Observe
changing nothing of the machine; every host write is then refused; a reset opens it again; a write above 0xFFF has no meaning
at any time. That a Run with a budget of 0, which takes no step, closes the window is the model's own deduction from the
history form of rule R164 (log 15, DEDUCED); the rules cited do not name such a Run. -/
def Obligations.WriteWindowClosesWhenTheWritesEnd : Prop :=
  (∀ (op : HostOp) (ss : Session), (op = .step ∨ (∃ n, op = .run n) ∨ op = .observe) →
    ∃ ss', op.apply ss = .next ss' ∧ ss'.windowClosed = true ∧ (op = .observe → ss'.core = ss.core)) ∧
  (∀ ss : Session, HostOp.apply .reset ss = .next ⟨State.reset, false⟩) ∧
  (∀ (ss : Session) (b : Byte), ss.windowClosed = true →
    (∀ a : Nat, a ≤ 0xFFF → HostOp.apply (.writeMem a b) ss = .refused .writeWindowClosed) ∧
    ∀ i : RegIdx, HostOp.apply (.writeReg i b) ss = .refused .writeWindowClosed) ∧
  (∀ (ss : Session) (b : Byte) (a : Nat), 0xFFF < a → HostOp.apply (.writeMem a b) ss = .fault (.noSuchByte a))

/-- The histories with a meaning (rules R163, R164, decision D11): after a reset, and up to the next one, a history has a
meaning exactly when it is writes, all to bytes that exist, and then Steps, Runs and Observes, with no write among these. (A
Run with a budget of 0 counts as a Run, which is log 15, DEDUCED.) -/
def Obligations.OnlyTheLicensedHistoriesHaveAMeaning : Prop :=
  ∀ ops : List HostOp, (∀ op ∈ ops, op ≠ .reset) →
    ((∃ ss, applyAll ops ⟨State.reset, false⟩ = .next ss) ↔
      ∃ writes rest, ops = writes ++ rest ∧ (∀ op ∈ writes, op.isWrite = true ∧ op.wellFormed = true) ∧
        ∀ op ∈ rest, op.isWrite = false)

/-- Within the window the order of two writes matters only when they hit the same byte or register, and there the last one
wins (the last sentence of rule R164). -/
def Obligations.LastHostWriteWins : Prop :=
  ∀ (ss : Session) (a a' : Nat) (i i' : RegIdx) (b b' : Byte), ss.windowClosed = false → ss.core.mem.wf = true →
    a ≤ 0xFFF → a' ≤ 0xFFF →
    applyAll [.writeMem a b, .writeMem a b'] ss = applyAll [.writeMem a b'] ss ∧
    applyAll [.writeReg i b, .writeReg i b'] ss = applyAll [.writeReg i b'] ss ∧
    (a ≠ a' → applyAll [.writeMem a b, .writeMem a' b'] ss = applyAll [.writeMem a' b', .writeMem a b] ss) ∧
    (i ≠ i' → applyAll [.writeReg i b, .writeReg i' b'] ss = applyAll [.writeReg i' b', .writeReg i b] ss) ∧
    applyAll [.writeMem a b, .writeReg i b'] ss = applyAll [.writeReg i b', .writeMem a b] ss

/-- Running under a budget and single-stepping give the same machine (rules R77, R145 (an inference of the spec's), R169). -/
def Obligations.RunEqualsSingleSteps : Prop :=
  ∀ (n : Nat) (ss : Session), ∃ ss' ss'', HostOp.apply (.run n) ss = .next ss' ∧
    applyAll (List.replicate n .step) ss = .next ss'' ∧ ss'.core = ss''.core

/-- The run loop has one result (rule R77): two runs from one state that both end, end in the same state, whatever their
budgets. -/
def Obligations.RunResultIsUnique : Prop :=
  ∀ s t u : State, s.RunsTo t → s.RunsTo u → t = u

/-- Running out of budget is no event (rule R169, decision D20): a run of `n` steps that is then given `m` more is the run of
`n + m` steps, and one that stops while FETCHING has the fault record it started with. -/
def Obligations.BudgetIsNoEvent : Prop :=
  ∀ (n m : Nat) (s : State), ∃ t, runFor n s = .next t ∧ runFor (n + m) s = runFor m t ∧
    (t.runState = .fetching → t.fault = s.fault)

/-- The output ports show all of the state but memory: two states with the same ports and the same memory are equal
(rules R25, R165; the port list and the codes are decisions D7 and D21). -/
def Obligations.PortsShowTheState : Prop :=
  ∀ s t : State, s.outputs = t.outputs → s.mem = t.mem → s = t
end

