-- ==== Sys2Proof/Laws/Decode.lean ====
section
/-! SUPPORT. The fields of a word as arithmetic on its number (rule R51), and of the words the encoder makes. -/

namespace Sys2Proof

theorem opClass_toNat (iw : Word) : (opClass iw).toNat = iw.toNat / 4096 := by
  have := iw.isLt
  simp only [opClass, BitVec.extractLsb'_toNat, Nat.shiftRight_eq_div_pow]
  omega

theorem fieldX_val (iw : Word) : (fieldX iw).val = iw.toNat / 256 % 16 := by
  show (iw.extractLsb' 8 4).toNat = _
  simp only [BitVec.extractLsb'_toNat, Nat.shiftRight_eq_div_pow]

theorem fieldY_val (iw : Word) : (fieldY iw).val = iw.toNat / 16 % 16 := by
  show (iw.extractLsb' 4 4).toNat = _
  simp only [BitVec.extractLsb'_toNat, Nat.shiftRight_eq_div_pow]

theorem opMinor_toNat (iw : Word) : (opMinor iw).toNat = iw.toNat % 16 := by
  simp only [opMinor, BitVec.extractLsb'_toNat, Nat.shiftRight_zero]

theorem fieldAddr_toNat (iw : Word) : (fieldAddr iw).toNat = iw.toNat % 4096 := by
  simp only [fieldAddr, BitVec.extractLsb'_toNat, Nat.shiftRight_zero]

theorem fieldKk_toNat (iw : Word) : (fieldKk iw).toNat = iw.toNat % 256 := by
  simp only [fieldKk, BitVec.extractLsb'_toNat, Nat.shiftRight_zero]

theorem wordOfBytes_toNat (hi lo : Byte) : (wordOfBytes hi lo).toNat = hi.toNat * 256 + lo.toNat := by
  have := lo.isLt
  simp only [wordOfBytes, BitVec.toNat_append]
  rw [← Nat.shiftLeft_add_eq_or_of_lt this, Nat.shiftLeft_eq]

theorem encodeA_toNat (c : BitVec 4) (addr : Addr) : (encodeA c addr).toNat = c.toNat * 4096 + addr.toNat := by
  have := addr.isLt
  simp only [encodeA, BitVec.toNat_append]
  rw [← Nat.shiftLeft_add_eq_or_of_lt this, Nat.shiftLeft_eq]

theorem encodeXK_toNat (c : BitVec 4) (x : RegIdx) (kk : Byte) :
    (encodeXK c x kk).toNat = c.toNat * 4096 + x.val * 256 + kk.toNat := by
  have hk := kk.isLt
  have hx : (BitVec.ofFin x : BitVec 4).toNat < 2 ^ 4 := BitVec.isLt _
  simp only [encodeXK, BitVec.toNat_append]
  rw [← Nat.shiftLeft_add_eq_or_of_lt hk, ← Nat.shiftLeft_add_eq_or_of_lt hx]
  simp only [Nat.shiftLeft_eq, BitVec.toNat_ofFin]
  omega

theorem encodeXY_toNat (c : BitVec 4) (x y : RegIdx) (minor : BitVec 4) :
    (encodeXY c x y minor).toNat = c.toNat * 4096 + x.val * 256 + y.val * 16 + minor.toNat := by
  have hm := minor.isLt
  have hx : (BitVec.ofFin x : BitVec 4).toNat < 2 ^ 4 := BitVec.isLt _
  have hy : (BitVec.ofFin y : BitVec 4).toNat < 2 ^ 4 := BitVec.isLt _
  simp only [encodeXY, BitVec.toNat_append]
  rw [← Nat.shiftLeft_add_eq_or_of_lt hm, ← Nat.shiftLeft_add_eq_or_of_lt hy, ← Nat.shiftLeft_add_eq_or_of_lt hx]
  simp only [Nat.shiftLeft_eq, BitVec.toNat_ofFin]
  omega

end Sys2Proof
end

