-- ==== Sys2Proof/Laws/Memory.lean ====
section
/-! SUPPORT. Memory: a read after a write, and that every operation keeps the canonical form. -/

namespace Sys2Proof.Machine

@[simp] theorem Memory.read_nil (a : Nat) : Memory.read [] a = 0#8 := rfl

/-- The canonical form from a higher bound on is the canonical form from a lower one. -/
theorem Memory.wfFrom_mono {lo lo' : Nat} (h : lo ≤ lo') : ∀ {m : Memory}, Memory.wfFrom lo' m = true → Memory.wfFrom lo m = true
  | [], _ => rfl
  | (a, b) :: m, hm => by
    simp only [Memory.wfFrom, Bool.and_eq_true, decide_eq_true_eq] at hm ⊢
    exact ⟨⟨⟨h.trans hm.1.1.1, hm.1.1.2⟩, hm.1.2⟩, hm.2⟩

/-- Below the bound of a canonical list nothing is listed, so the byte is the reset contents. -/
theorem Memory.read_below : ∀ {lo : Nat} {m : Memory}, Memory.wfFrom lo m = true → ∀ {a : Nat}, a < lo → m.read a = 0#8
  | _, [], _, _, _ => rfl
  | lo, (k, b) :: m, hm, a, ha => by
    simp only [Memory.wfFrom, Bool.and_eq_true, decide_eq_true_eq] at hm
    have hk : a ≠ k := by omega
    simp only [Memory.read, hk, if_false]
    exact Memory.read_below hm.2 (by omega)

theorem Memory.read_consCell {m : Memory} {a : Nat} (hm : Memory.wfFrom (a + 1) m = true) (v : Byte) (j : Nat) :
    (Memory.consCell a v m).read j = if j = a then v else m.read j := by
  unfold Memory.consCell
  split
  · rename_i hv
    split
    · rename_i hj
      rw [hj, Memory.read_below hm (by omega), hv]
    · rfl
  · rfl

theorem Memory.wfFrom_consCell {m : Memory} {lo a : Nat} (hm : Memory.wfFrom (a + 1) m = true) (hlo : lo ≤ a)
    (ha : a < 4096) (v : Byte) : Memory.wfFrom lo (Memory.consCell a v m) = true := by
  unfold Memory.consCell
  split
  · exact Memory.wfFrom_mono (by omega) hm
  · rename_i hv
    simp only [Memory.wfFrom, Bool.and_eq_true, decide_eq_true_eq]
    exact ⟨⟨⟨hlo, ha⟩, hv⟩, hm⟩

/-- A write keeps the canonical form. -/
theorem Memory.wfFrom_write {a : Nat} (ha : a < 4096) (v : Byte) :
    ∀ {lo : Nat} {m : Memory}, lo ≤ a → Memory.wfFrom lo m = true → Memory.wfFrom lo (m.write a v) = true
  | lo, [], hlo, _ => Memory.wfFrom_consCell rfl hlo ha v
  | lo, (k, b) :: m, hlo, hm => by
    have hm' := hm
    simp only [Memory.wfFrom, Bool.and_eq_true, decide_eq_true_eq] at hm'
    obtain ⟨⟨⟨hk, hk'⟩, hb⟩, hrest⟩ := hm'
    simp only [Memory.write]
    split
    · rename_i hlt
      refine Memory.wfFrom_consCell ?_ hlo ha v
      simp only [Memory.wfFrom, Bool.and_eq_true, decide_eq_true_eq]
      exact ⟨⟨⟨hlt, hk'⟩, hb⟩, hrest⟩
    · split
      · rename_i heq
        exact Memory.wfFrom_consCell (heq ▸ hrest) hlo ha v
      · simp only [Memory.wfFrom, Bool.and_eq_true, decide_eq_true_eq]
        exact ⟨⟨⟨hk, hk'⟩, hb⟩, Memory.wfFrom_write ha v (by omega) hrest⟩

/-- `mem[a] <- v`: the byte at `a` reads `v`, every other byte reads as before. -/
theorem Memory.read_write (a : Nat) (v : Byte) (j : Nat) :
    ∀ {lo : Nat} {m : Memory}, Memory.wfFrom lo m = true → (m.write a v).read j = if j = a then v else m.read j
  | _, [], _ => Memory.read_consCell rfl v j
  | lo, (k, b) :: m, hm => by
    have hm' := hm
    simp only [Memory.wfFrom, Bool.and_eq_true, decide_eq_true_eq] at hm'
    obtain ⟨⟨⟨_, hk'⟩, hb⟩, hrest⟩ := hm'
    simp only [Memory.write]
    split
    · rename_i hlt
      refine Memory.read_consCell ?_ v j
      simp only [Memory.wfFrom, Bool.and_eq_true, decide_eq_true_eq]
      exact ⟨⟨⟨hlt, hk'⟩, hb⟩, hrest⟩
    · split
      · rename_i heq
        subst heq
        rw [Memory.read_consCell hrest]
        simp only [Memory.read]
        split <;> rfl
      · rename_i hne
        simp only [Memory.read, Memory.read_write a v j hrest]
        split
        · rename_i hj
          subst hj
          rw [if_neg (Ne.symm hne)]
        · rfl

/-- The canonical form is kept by a write to a byte that exists. -/
theorem Memory.write_wf {m : Memory} {a : Nat} (hm : m.wf = true) (ha : a < 4096) (v : Byte) : (m.write a v).wf = true :=
  Memory.wfFrom_write ha v (Nat.zero_le a) hm

theorem Memory.read_write_of_wf {m : Memory} (hm : m.wf = true) (a : Nat) (v : Byte) (j : Nat) :
    (m.write a v).read j = if j = a then v else m.read j := Memory.read_write a v j hm

/-- Two canonical memories from one bound on that read alike at every address are the same list. -/
theorem Memory.eq_of_read_from : ∀ {lo : Nat} {m m' : Memory}, Memory.wfFrom lo m = true → Memory.wfFrom lo m' = true →
    (∀ a, m.read a = m'.read a) → m = m'
  | _, [], [], _, _, _ => rfl
  | _, [], (k, b) :: m', _, h', hr => by
    simp only [Memory.wfFrom, Bool.and_eq_true, decide_eq_true_eq] at h'
    exact absurd (by simpa [Memory.read] using (hr k).symm) h'.1.2
  | _, (k, b) :: m, [], h, _, hr => by
    simp only [Memory.wfFrom, Bool.and_eq_true, decide_eq_true_eq] at h
    exact absurd (by simpa [Memory.read] using hr k) h.1.2
  | lo, (k, b) :: m, (k', b') :: m', h, h', hr => by
    simp only [Memory.wfFrom, Bool.and_eq_true, decide_eq_true_eq] at h h'
    have hk : k = k' := by
      rcases Nat.lt_trichotomy k k' with hlt | heq | hlt
      · have := hr k
        simp only [Memory.read, if_true, if_neg (Nat.ne_of_lt hlt), Memory.read_below h'.2 (Nat.lt_succ_of_lt hlt)] at this
        exact absurd this h.1.2
      · exact heq
      · have := hr k'
        simp only [Memory.read, if_true, if_neg (Nat.ne_of_lt hlt), Memory.read_below h.2 (Nat.lt_succ_of_lt hlt)] at this
        exact absurd this.symm h'.1.2
    subst hk
    have hb : b = b' := by simpa [Memory.read] using hr k
    have hrest : m = m' := Memory.eq_of_read_from h.2 h'.2 fun a => by
      by_cases ha : a = k
      · rw [ha, Memory.read_below h.2 (Nat.lt_succ_self k), Memory.read_below h'.2 (Nat.lt_succ_self k)]
      · simpa only [Memory.read, if_neg ha] using hr a
    rw [hb, hrest]

/-- Equal memories are equal data: canonical memories that read alike at every address are the same list. -/
theorem Memory.eq_of_read {m m' : Memory} (h : m.wf = true) (h' : m'.wf = true) (hr : ∀ a, m.read a = m'.read a) : m = m' :=
  Memory.eq_of_read_from h h' hr

/-- Of two writes to one byte the last one wins (rule R164). -/
theorem Memory.write_write_same {m : Memory} (hm : m.wf = true) {a : Nat} (ha : a < 4096) (v w : Byte) :
    (m.write a v).write a w = m.write a w :=
  Memory.eq_of_read (Memory.write_wf (Memory.write_wf hm ha v) ha w) (Memory.write_wf hm ha w) fun j => by
    rw [Memory.read_write_of_wf (Memory.write_wf hm ha v), Memory.read_write_of_wf hm, Memory.read_write_of_wf hm]
    split <;> rfl

/-- Two writes to different bytes commute (rule R164). -/
theorem Memory.write_comm {m : Memory} (hm : m.wf = true) {a a' : Nat} (ha : a < 4096) (ha' : a' < 4096) (hne : a ≠ a')
    (v w : Byte) : (m.write a v).write a' w = (m.write a' w).write a v :=
  Memory.eq_of_read (Memory.write_wf (Memory.write_wf hm ha v) ha' w) (Memory.write_wf (Memory.write_wf hm ha' w) ha v)
    fun j => by
      rw [Memory.read_write_of_wf (Memory.write_wf hm ha v), Memory.read_write_of_wf hm,
        Memory.read_write_of_wf (Memory.write_wf hm ha' w), Memory.read_write_of_wf hm]
      split
      · rename_i h
        rw [if_neg (fun e => hne (e.symm.trans h))]
      · rfl

/-- Reset memory is canonical. -/
theorem State.reset_mem_wf : State.reset.mem.wf = true := rfl

end Sys2Proof.Machine
end

