-- ==== Sys2Proof/Laws/State.lean ====
section
/-! SUPPORT. One lemma per field per update, true by rfl, so that no proof unfolds a record update. -/

namespace Sys2Proof.Machine

variable (s : State)

/-! ## writeReg -/

@[simp] theorem State.writeReg_regs (x : RegIdx) (v : Byte) : (s.writeReg x v).regs = s.regs.set x v := rfl
@[simp] theorem State.writeReg_pc (x : RegIdx) (v : Byte) : (s.writeReg x v).pc = s.pc := rfl
@[simp] theorem State.writeReg_stack (x : RegIdx) (v : Byte) : (s.writeReg x v).stack = s.stack := rfl
@[simp] theorem State.writeReg_sp (x : RegIdx) (v : Byte) : (s.writeReg x v).sp = s.sp := rfl
@[simp] theorem State.writeReg_mem (x : RegIdx) (v : Byte) : (s.writeReg x v).mem = s.mem := rfl
@[simp] theorem State.writeReg_runState (x : RegIdx) (v : Byte) : (s.writeReg x v).runState = s.runState := rfl
@[simp] theorem State.writeReg_fault (x : RegIdx) (v : Byte) : (s.writeReg x v).fault = s.fault := rfl
@[simp] theorem State.writeReg_slot (x : RegIdx) (v : Byte) (j : Fin 16) : (s.writeReg x v).slot j = s.slot j := rfl
@[simp] theorem State.writeReg_fetch (x : RegIdx) (v : Byte) : (s.writeReg x v).fetch = s.fetch := rfl

/-! ## setPc -/

@[simp] theorem State.setPc_regs (a : Word) : (s.setPc a).regs = s.regs := rfl
@[simp] theorem State.setPc_pc (a : Word) : (s.setPc a).pc = a := rfl
@[simp] theorem State.setPc_stack (a : Word) : (s.setPc a).stack = s.stack := rfl
@[simp] theorem State.setPc_sp (a : Word) : (s.setPc a).sp = s.sp := rfl
@[simp] theorem State.setPc_mem (a : Word) : (s.setPc a).mem = s.mem := rfl
@[simp] theorem State.setPc_runState (a : Word) : (s.setPc a).runState = s.runState := rfl
@[simp] theorem State.setPc_fault (a : Word) : (s.setPc a).fault = s.fault := rfl
@[simp] theorem State.setPc_reg (a : Word) (j : RegIdx) : (s.setPc a).reg j = s.reg j := rfl
@[simp] theorem State.setPc_slot (a : Word) (j : Fin 16) : (s.setPc a).slot j = s.slot j := rfl
@[simp] theorem State.setPc_fetch (a : Word) : (s.setPc a).fetch = s.memReadWord a.toNat := rfl

/-! ## advancePc -/

@[simp] theorem State.advancePc_regs : (s.advancePc).regs = s.regs := rfl
@[simp] theorem State.advancePc_pc : (s.advancePc).pc = s.pc + 2#16 := rfl
@[simp] theorem State.advancePc_stack : (s.advancePc).stack = s.stack := rfl
@[simp] theorem State.advancePc_sp : (s.advancePc).sp = s.sp := rfl
@[simp] theorem State.advancePc_mem : (s.advancePc).mem = s.mem := rfl
@[simp] theorem State.advancePc_runState : (s.advancePc).runState = s.runState := rfl
@[simp] theorem State.advancePc_fault : (s.advancePc).fault = s.fault := rfl
@[simp] theorem State.advancePc_reg (j : RegIdx) : (s.advancePc).reg j = s.reg j := rfl
@[simp] theorem State.advancePc_slot (j : Fin 16) : (s.advancePc).slot j = s.slot j := rfl
@[simp] theorem State.advancePc_fetch : (s.advancePc).fetch = s.memReadWord (s.pc + 2#16).toNat := rfl

/-! ## halt -/

@[simp] theorem State.halt_regs : (s.halt).regs = s.regs := rfl
@[simp] theorem State.halt_pc : (s.halt).pc = s.pc := rfl
@[simp] theorem State.halt_stack : (s.halt).stack = s.stack := rfl
@[simp] theorem State.halt_sp : (s.halt).sp = s.sp := rfl
@[simp] theorem State.halt_mem : (s.halt).mem = s.mem := rfl
@[simp] theorem State.halt_runState : (s.halt).runState = .halted := rfl
@[simp] theorem State.halt_fault : (s.halt).fault = s.fault := rfl
@[simp] theorem State.halt_reg (j : RegIdx) : (s.halt).reg j = s.reg j := rfl
@[simp] theorem State.halt_slot (j : Fin 16) : (s.halt).slot j = s.slot j := rfl
@[simp] theorem State.halt_fetch : (s.halt).fetch = s.fetch := rfl

/-! ## raise -/

@[simp] theorem State.raise_regs (k : FaultKind) (i : Word) : (s.raise k i).regs = s.regs := rfl
@[simp] theorem State.raise_pc (k : FaultKind) (i : Word) : (s.raise k i).pc = s.pc := rfl
@[simp] theorem State.raise_stack (k : FaultKind) (i : Word) : (s.raise k i).stack = s.stack := rfl
@[simp] theorem State.raise_sp (k : FaultKind) (i : Word) : (s.raise k i).sp = s.sp := rfl
@[simp] theorem State.raise_mem (k : FaultKind) (i : Word) : (s.raise k i).mem = s.mem := rfl
@[simp] theorem State.raise_runState (k : FaultKind) (i : Word) : (s.raise k i).runState = .faulted := rfl
@[simp] theorem State.raise_fault (k : FaultKind) (i : Word) : (s.raise k i).fault = ⟨k, i⟩ := rfl
@[simp] theorem State.raise_reg (k : FaultKind) (i : Word) (j : RegIdx) : (s.raise k i).reg j = s.reg j := rfl
@[simp] theorem State.raise_slot (k : FaultKind) (i : Word) (j : Fin 16) : (s.raise k i).slot j = s.slot j := rfl
@[simp] theorem State.raise_fetch (k : FaultKind) (i : Word) : (s.raise k i).fetch = s.fetch := rfl

/-! ## writeMem -/

@[simp] theorem State.writeMem_regs (a : Nat) (v : Byte) : (s.writeMem a v).regs = s.regs := rfl
@[simp] theorem State.writeMem_pc (a : Nat) (v : Byte) : (s.writeMem a v).pc = s.pc := rfl
@[simp] theorem State.writeMem_stack (a : Nat) (v : Byte) : (s.writeMem a v).stack = s.stack := rfl
@[simp] theorem State.writeMem_sp (a : Nat) (v : Byte) : (s.writeMem a v).sp = s.sp := rfl
@[simp] theorem State.writeMem_mem (a : Nat) (v : Byte) : (s.writeMem a v).mem = s.mem.write a v := rfl
@[simp] theorem State.writeMem_runState (a : Nat) (v : Byte) : (s.writeMem a v).runState = s.runState := rfl
@[simp] theorem State.writeMem_fault (a : Nat) (v : Byte) : (s.writeMem a v).fault = s.fault := rfl
@[simp] theorem State.writeMem_reg (a : Nat) (v : Byte) (j : RegIdx) : (s.writeMem a v).reg j = s.reg j := rfl
@[simp] theorem State.writeMem_slot (a : Nat) (v : Byte) (j : Fin 16) : (s.writeMem a v).slot j = s.slot j := rfl

/-- A register write: the register named reads the value, every other one reads as before (rule R11). -/
@[simp] theorem State.writeReg_reg (x j : RegIdx) (v : Byte) : (s.writeReg x v).reg j = if j = x then v else s.reg j := by
  simp only [State.writeReg, State.reg, Fin.getElem_fin, Vector.getElem_set, Fin.ext_iff, eq_comm]

/-! ## The flag write, the operation on a register and the skip, in terms of the updates above -/

@[simp] theorem State.writeFlag_eq (v : Byte) : s.writeFlag v = s.writeReg 0xF v := rfl

@[simp] theorem State.applyToReg_eq (f : Byte → Byte → Byte) (x : RegIdx) (o : Source) :
    s.applyToReg f x o = s.writeReg x (f (s.reg x) (o.value s)) := rfl

@[simp] theorem Source.value_reg (y : RegIdx) : (Source.reg y).value s = s.reg y := rfl

@[simp] theorem Source.value_imm (kk : Byte) : (Source.imm kk).value s = kk := rfl

/-- A skip moves `pc` and nothing else, by 2 exactly when it is taken (rule R103). -/
theorem State.skipIf_eq (taken : Bool) : s.skipIf taken = s.setPc (if taken then s.pc + 2#16 else s.pc) := by
  cases taken <;> rfl

theorem State.regEquals_iff (x : RegIdx) (o : Source) : s.regEquals x o = true ↔ s.reg x = o.value s := by
  simp only [State.regEquals, beq_iff_eq]

/-- Two states with the same registers as seen by every read have the same register file. -/
theorem State.regs_eq_of_reg {t : State} (h : ∀ j, t.reg j = s.reg j) : t.regs = s.regs :=
  Vector.ext fun i hi => h ⟨i, hi⟩

/-- Two states with the same slots as seen by every read have the same stack. -/
theorem State.stack_eq_of_slot {t : State} (h : ∀ k, t.slot k = s.slot k) : t.stack = s.stack :=
  Vector.ext fun i hi => h ⟨i, hi⟩

end Sys2Proof.Machine
end

