-- ==== Sys2Proof/Laws/Ops.lean ====
section
/-! SUPPORT. For each shared operation, once, everything it can do. -/

namespace Sys2Proof.Machine

variable {s : State}

/-- What a push below 16 frames leaves (rule R18). -/
theorem State.push_of_lt (v : Word) (h : s.sp.val < 16) :
    s.push v = some { s with stack := s.stack.set s.sp.val v h, sp := ⟨s.sp.val + 1, Nat.succ_lt_succ h⟩ } :=
  dif_pos h

/-- A push on a full stack does nothing (rule R131). -/
theorem State.push_of_full (v : Word) (h : s.sp.val = 16) : s.push v = none :=
  dif_neg (by simp only [Config.stackCap]; omega)

/-- What a pop with a live frame gives and leaves (rules R18, R19). -/
theorem State.pop_of_pos (h : 0 < s.sp.val) :
    s.pop = some (s.stack[s.sp.val - 1]'(by omega), { s with sp := ⟨s.sp.val - 1, by omega⟩ }) :=
  dif_pos h

/-- A pop of an empty stack does nothing (rule R132). -/
theorem State.pop_of_empty (h : s.sp.val = 0) : s.pop = none :=
  dif_neg (by omega)

/-- A push succeeds exactly below 16 live frames; it writes the slot at the old `sp` and no other (rule R18). -/
theorem State.push_cases (s : State) (v : Word) :
    (∃ t, s.push v = some t ∧ s.sp.val < 16 ∧ t.sp.val = s.sp.val + 1 ∧
        (∀ k : Fin 16, t.slot k = if k.val = s.sp.val then v else s.slot k) ∧
        t.regs = s.regs ∧ t.pc = s.pc ∧ t.mem = s.mem ∧ t.runState = s.runState ∧ t.fault = s.fault) ∨
      (s.push v = none ∧ s.sp.val = 16) := by
  unfold State.push
  split
  · rename_i h
    refine .inl ⟨_, rfl, h, rfl, fun k => ?_, rfl, rfl, rfl, rfl, rfl⟩
    simp only [State.slot, Fin.getElem_fin, Vector.getElem_set, eq_comm]
  · rename_i h
    exact .inr ⟨rfl, by have := s.sp.isLt; simp only [Config.stackCap] at h; omega⟩

/-- A pop succeeds exactly with a live frame; it gives the slot at the new `sp` and writes no slot (rules R18, R19). -/
theorem State.pop_cases (s : State) :
    (∃ (k : Fin 16) (t : State), s.pop = some (s.slot k, t) ∧ s.sp.val = k.val + 1 ∧ t.sp.val = k.val ∧ t.stack = s.stack ∧
        t.regs = s.regs ∧ t.pc = s.pc ∧ t.mem = s.mem ∧ t.runState = s.runState ∧ t.fault = s.fault) ∨
      (s.pop = none ∧ s.sp.val = 0) := by
  unfold State.pop
  split
  · rename_i h
    exact .inl ⟨⟨s.sp.val - 1, by omega⟩, _, rfl, by simp only; omega, rfl, rfl, rfl, rfl, rfl, rfl, rfl⟩
  · rename_i h
    exact .inr ⟨rfl, by omega⟩

/-- The fetch: the two bytes at `pc`, high byte first, or none where the second lies outside memory (rules R34, R72). -/
theorem State.fetch_cases (s : State) :
    (s.fetch = some (wordOfBytes (s.mem.read s.pc.toNat) (s.mem.read (s.pc.toNat + 1))) ∧ s.pc.toNat ≤ 0xFFE) ∨
      (s.fetch = none ∧ 0xFFF ≤ s.pc.toNat) := by
  unfold State.fetch State.memReadWord
  split
  · rename_i h
    exact .inl ⟨rfl, by simp only [Config.memSize] at h; omega⟩
  · rename_i h
    exact .inr ⟨rfl, by simp only [Config.memSize] at h; omega⟩

/-- An in-bounds `pc` does not wrap when it advances (rule R15). -/
theorem pc_add_two_toNat {a : Word} (h : a.toNat ≤ 0x1000) : (a + 2#16).toNat = a.toNat + 2 := by
  rw [BitVec.toNat_add]
  exact Nat.mod_eq_of_lt (by have : (2#16).toNat = 2 := rfl; omega)

/-- JMP and CALL go to the address of the operand, below 4096 (rule R53). -/
theorem targetOf_toNat (addr : Addr) : (targetOf addr).toNat = addr.toNat := by
  simp only [targetOf, BitVec.toNat_setWidth]
  exact Nat.mod_eq_of_lt (by have := addr.isLt; omega)

/-- The 9-bit sum does not wrap (rule R124). -/
theorem sum9_toNat (a b : Byte) : (sum9 a b).toNat = a.toNat + b.toNat := by
  have := a.isLt
  have := b.isLt
  simp only [sum9, BitVec.toNat_add, BitVec.toNat_setWidth]
  omega

/-- The sum of two bytes is modulo 256 (rules R111, R124, R125). -/
theorem sum8_toNat (a b : Byte) : (sum8 a b).toNat = (a.toNat + b.toNat) % 256 := by
  simp only [sum8, BitVec.extractLsb'_toNat, sum9_toNat, Nat.shiftRight_zero]

/-- The flag of ADD.REG is 1 exactly when the sum is 256 or more (rule R124). -/
theorem carryFlag_eq (a b : Byte) : carryFlag a b = if 256 ≤ a.toNat + b.toNat then 0x01#8 else 0x00#8 := by
  have := a.isLt
  have := b.isLt
  apply BitVec.eq_of_toNat_eq
  simp only [carryFlag, BitVec.toNat_setWidth, BitVec.extractLsb'_toNat, sum9_toNat, Nat.shiftRight_eq_div_pow]
  split <;> simp only [BitVec.toNat_ofNat] <;> omega

end Sys2Proof.Machine
end

