-- ==== Sys2Proof/Laws/Step.lean ====
section
/-! SUPPORT. The four things a step can do, one equation each, so that no later proof unfolds it. -/

namespace Sys2Proof.Machine

variable {s : State}

/-- Outside FETCHING a step does nothing (rule R71). -/
theorem step_of_ended (h : s.runState ≠ .fetching) : step s = .next s := by
  unfold step
  split
  · rfl
  · rfl
  · rename_i hf
    exact absurd hf h

/-- A refused fetch (rule R72). -/
theorem step_of_refused (hf : s.runState = .fetching) (h : s.fetch = none) :
    step s = .next (s.raise .outOfBoundsFetch s.pc) := by
  simp only [step, hf, h]

/-- The default arm (rule R76). -/
theorem step_of_unimplemented {iw : Word} {e : DecodeError} (hf : s.runState = .fetching) (h : s.fetch = some iw)
    (hd : decode iw = .error e) : step s = .next (s.advancePc.raise .unimplementedOpcode iw) := by
  simp only [step, hf, h, hd]

/-- A decoded instruction runs with `pc` advanced (rules R73, R75). -/
theorem step_of_decoded {iw : Word} {i : Instr} (hf : s.runState = .fetching) (h : s.fetch = some iw)
    (hd : decode iw = .ok i) : step s = exec i s.advancePc := by
  simp only [step, hf, h, hd]

end Sys2Proof.Machine
end

