-- ==== Sys2Proof/Laws/HostOps.lean ====
section
/-! SUPPORT. For each host operation, once, everything it can do to a session, and how histories run one after the other. -/

namespace Sys2Proof.Machine

variable {ss : Session}

@[simp] theorem HostOp.apply_reset : HostOp.reset.apply ss = .next .fresh := rfl

/-- Observe changes nothing of the machine and closes the write window (rules R163, R164). -/
@[simp] theorem HostOp.apply_observe : HostOp.observe.apply ss = .next ⟨ss.core, true⟩ := rfl

/-- In the window a write changes the machine and leaves the window open. -/
theorem Session.hostWrite_of_open (h : ss.windowClosed = false) (t : State) : ss.hostWrite t = .next ⟨t, false⟩ := by
  simp only [Session.hostWrite, h, Bool.false_eq_true, if_false]

/-- After the window a write is refused (rule R164, decision D11). -/
theorem Session.hostWrite_of_closed (h : ss.windowClosed = true) (t : State) : ss.hostWrite t = .refused .writeWindowClosed := by
  simp only [Session.hostWrite, h, if_true]

theorem HostOp.apply_writeMem_of_lt {a : Nat} (ha : a < 4096) (b : Byte) :
    (HostOp.writeMem a b).apply ss = ss.hostWrite (ss.core.writeMem a b) := by
  simp only [HostOp.apply, HostOp.wellFormed, Config.memSize, ha, decide_true, if_true]

/-- A write to a byte that does not exist has no meaning at any time (rule R163). -/
theorem HostOp.apply_writeMem_of_ge {a : Nat} (ha : 4096 ≤ a) (b : Byte) :
    (HostOp.writeMem a b).apply ss = .fault (.noSuchByte a) := by
  simp only [HostOp.apply, HostOp.wellFormed, Config.memSize, Nat.not_lt.mpr ha, decide_false, Bool.false_eq_true, if_false]

theorem HostOp.apply_writeReg (i : RegIdx) (b : Byte) :
    (HostOp.writeReg i b).apply ss = ss.hostWrite (ss.core.writeReg i b) := rfl

/-- A write that the interface has, in the window: a next session with the window still open. -/
theorem HostOp.apply_write_of_open {op : HostOp} (h : ss.windowClosed = false) (hw : op.isWrite = true)
    (hf : op.wellFormed = true) : ∃ t, op.apply ss = .next ⟨t, false⟩ := by
  cases op with
  | writeMem a b =>
    have ha : a < 4096 := by simpa only [HostOp.wellFormed, decide_eq_true_eq] using hf
    exact ⟨_, (HostOp.apply_writeMem_of_lt ha b).trans (Session.hostWrite_of_open h _)⟩
  | writeReg i b => exact ⟨_, Session.hostWrite_of_open h _⟩
  | reset => cases hw
  | step => cases hw
  | run n => cases hw
  | observe => cases hw

/-- A write with a meaning was in the window and to a byte or register that exists. -/
theorem HostOp.open_of_apply_write {op : HostOp} {ss' : Session} (hw : op.isWrite = true) (h : op.apply ss = .next ss') :
    ss.windowClosed = false ∧ op.wellFormed = true := by
  have key : ∀ t, ss.hostWrite t = .next ss' → ss.windowClosed = false := fun t ht => by
    cases hc : ss.windowClosed with
    | false => rfl
    | true => rw [Session.hostWrite_of_closed hc] at ht; cases ht
  cases op with
  | writeMem a b =>
    by_cases ha : a < 4096
    · rw [HostOp.apply_writeMem_of_lt ha] at h
      exact ⟨key _ h, decide_eq_true ha⟩
    · rw [HostOp.apply_writeMem_of_ge (Nat.not_lt.mp ha)] at h; cases h
  | writeReg i b => exact ⟨key _ h, rfl⟩
  | reset => cases hw
  | step => cases hw
  | run n => cases hw
  | observe => cases hw

/-- A Step, a Run or an Observe with a meaning closes the window. -/
theorem HostOp.closed_of_apply {op : HostOp} {ss' : Session} (hw : op.isWrite = false) (hr : op ≠ .reset)
    (h : op.apply ss = .next ss') : ss'.windowClosed = true := by
  have key : ∀ o, Session.advanced o = .next ss' → ss'.windowClosed = true := fun o ho => by
    cases o <;> cases ho
    rfl
  cases op with
  | step => exact key _ h
  | run n => exact key _ h
  | observe => cases h; rfl
  | reset => exact absurd rfl hr
  | writeMem a b => cases hw
  | writeReg i b => cases hw

/-- One operation of a history. -/
theorem applyAll_cons_of_next {op : HostOp} {ss' : Session} (h : op.apply ss = .next ss') (ops : List HostOp) :
    applyAll (op :: ops) ss = applyAll ops ss' := by
  simp only [applyAll, h]

/-- A history with a meaning has a meaning from its first operation on. -/
theorem applyAll_cons_next {op : HostOp} {ops : List HostOp} {ss' : Session} (h : applyAll (op :: ops) ss = .next ss') :
    ∃ u, op.apply ss = .next u ∧ applyAll ops u = .next ss' := by
  cases ho : op.apply ss with
  | next u => exact ⟨u, rfl, by rw [applyAll_cons_of_next ho] at h; exact h⟩
  | fault r => simp only [applyAll, ho] at h; cases h
  | refused r => simp only [applyAll, ho] at h; cases h

end Sys2Proof.Machine
end

