-- ==== Sys2Proof/Laws/PerInstr.lean ====
section
/-! SUPPORT. Statements made for every instruction, one lemma per constructor. -/

namespace Sys2Proof.Laws

/-! ## The encoder's word lies in the instruction's own row of the opcode table (rule R54) -/

/-- A nibble under the mask 0xF is itself. -/
theorem and_ones : ∀ c : BitVec 4, c &&& 0xF#4 = c := by decide

/-- Under the mask of format A only `op_class` is left. -/
theorem encodeA_masked (c : BitVec 4) (addr : Addr) : encodeA c addr &&& 0xF000#16 = encodeA c 0 := by
  have h : (0xF000#16 : Word) = (0xF#4 ++ 0#12 : BitVec 16) := rfl
  rw [encodeA, h, BitVec.and_append]
  simp [encodeA, and_ones]

/-- Under the mask of format XK only `op_class` is left. -/
theorem encodeXK_masked (c : BitVec 4) (x : RegIdx) (kk : Byte) : encodeXK c x kk &&& 0xF000#16 = encodeXK c 0 0 := by
  have h : (0xF000#16 : Word) = ((0xF#4 ++ 0#4) ++ 0#8 : BitVec 16) := rfl
  rw [encodeXK, h, BitVec.and_append, BitVec.and_append]
  simp [encodeXK, and_ones]

/-- Under the mask of format XY only `op_class` and `op_minor` are left. -/
theorem encodeXY_masked (c : BitVec 4) (x y : RegIdx) (m : BitVec 4) : encodeXY c x y m &&& 0xF00F#16 = encodeXY c 0 0 m := by
  have h : (0xF00F#16 : Word) = (((0xF#4 ++ 0#4) ++ 0#4) ++ 0xF#4 : BitVec 16) := rfl
  rw [encodeXY, h, BitVec.and_append, BitVec.and_append, BitVec.and_append]
  simp [encodeXY, and_ones]

/-- The instruction's word is selected by a row of the table that has the instruction's name. -/
def TableRow.Statement (i : Instr) : Prop :=
  ∃ row ∈ opcodeTable, row.mnemonic = i.mnemonic ∧ row.selects (encode i) = true

theorem TableRow.halt : TableRow.Statement .halt := ⟨⟨.halt, 0x0000#16, 0xFFFF#16⟩, by decide⟩
theorem TableRow.ret : TableRow.Statement .ret := ⟨⟨.ret, 0x00EE#16, 0xFFFF#16⟩, by decide⟩
theorem TableRow.jmp (addr : Addr) : TableRow.Statement (.jmp addr) :=
  ⟨⟨.jmp, 0x1000#16, 0xF000#16⟩, by decide, rfl, by simp only [OpcodeRow.selects, encode, encodeA_masked]; rfl⟩
theorem TableRow.call (addr : Addr) : TableRow.Statement (.call addr) :=
  ⟨⟨.call, 0x2000#16, 0xF000#16⟩, by decide, rfl, by simp only [OpcodeRow.selects, encode, encodeA_masked]; rfl⟩
theorem TableRow.skipEqImm (x : RegIdx) (kk : Byte) : TableRow.Statement (.skipEqImm x kk) :=
  ⟨⟨.skipEqImm, 0x3000#16, 0xF000#16⟩, by decide, rfl, by simp only [OpcodeRow.selects, encode, encodeXK_masked]; rfl⟩
theorem TableRow.skipNeImm (x : RegIdx) (kk : Byte) : TableRow.Statement (.skipNeImm x kk) :=
  ⟨⟨.skipNeImm, 0x4000#16, 0xF000#16⟩, by decide, rfl, by simp only [OpcodeRow.selects, encode, encodeXK_masked]; rfl⟩
theorem TableRow.skipEqReg (x y : RegIdx) : TableRow.Statement (.skipEqReg x y) :=
  ⟨⟨.skipEqReg, 0x5000#16, 0xF00F#16⟩, by decide, rfl, by simp only [OpcodeRow.selects, encode, encodeXY_masked]; rfl⟩
theorem TableRow.loadImm (x : RegIdx) (kk : Byte) : TableRow.Statement (.loadImm x kk) :=
  ⟨⟨.loadImm, 0x6000#16, 0xF000#16⟩, by decide, rfl, by simp only [OpcodeRow.selects, encode, encodeXK_masked]; rfl⟩
theorem TableRow.addImm (x : RegIdx) (kk : Byte) : TableRow.Statement (.addImm x kk) :=
  ⟨⟨.addImm, 0x7000#16, 0xF000#16⟩, by decide, rfl, by simp only [OpcodeRow.selects, encode, encodeXK_masked]; rfl⟩
theorem TableRow.loadReg (x y : RegIdx) : TableRow.Statement (.loadReg x y) :=
  ⟨⟨.loadReg, 0x8000#16, 0xF00F#16⟩, by decide, rfl, by simp only [OpcodeRow.selects, encode, encodeXY_masked]; rfl⟩
theorem TableRow.orReg (x y : RegIdx) : TableRow.Statement (.orReg x y) :=
  ⟨⟨.or, 0x8001#16, 0xF00F#16⟩, by decide, rfl, by simp only [OpcodeRow.selects, encode, encodeXY_masked]; rfl⟩
theorem TableRow.andReg (x y : RegIdx) : TableRow.Statement (.andReg x y) :=
  ⟨⟨.and, 0x8002#16, 0xF00F#16⟩, by decide, rfl, by simp only [OpcodeRow.selects, encode, encodeXY_masked]; rfl⟩
theorem TableRow.xorReg (x y : RegIdx) : TableRow.Statement (.xorReg x y) :=
  ⟨⟨.xor, 0x8003#16, 0xF00F#16⟩, by decide, rfl, by simp only [OpcodeRow.selects, encode, encodeXY_masked]; rfl⟩
theorem TableRow.addReg (x y : RegIdx) : TableRow.Statement (.addReg x y) :=
  ⟨⟨.addReg, 0x8004#16, 0xF00F#16⟩, by decide, rfl, by simp only [OpcodeRow.selects, encode, encodeXY_masked]; rfl⟩

end Sys2Proof.Laws
end

