-- ==== Sys2Proof/Tests/Slice0.lean ====
section
/-! SUPPORT. The model's own tests. Expected results are those of spec/95_test_vectors.md, named by its section, or of the example in
the rule cited; and for every statement with hypotheses a concrete state and operands that meet them. -/

namespace Sys2Proof.Tests

open Sys2Proof.Machine

/-! ## Helpers -/

/-- Reset with a two-byte word stored at `a` and `pc` there. -/
def fetchAt (a : Word) (hi lo : Byte) : State :=
  { State.reset with pc := a, mem := (Memory.write [] a.toNat hi).write (a.toNat + 1) lo }

/-- What a next state shows, none for a fault or a refusal. -/
def seen {α : Type} (f : State → α) : Host.Outcome State Fault Refusal → Option α
  | .next t => some (f t)
  | .fault _ => none
  | .refused _ => none

/-! ## WellFormed: an ill-formed word for each kind of row, and an ill-formed host operation -/

theorem test_class0_other_words_ill_formed :
    wellFormedWord 0x0001#16 = false ∧ wellFormedWord 0x00E0#16 = false ∧ wellFormedWord 0x00ED#16 = false ∧
    wellFormedWord 0x00EF#16 = false ∧ wellFormedWord 0x0FFF#16 = false := by decide

theorem test_class5_minor_ill_formed :
    wellFormedWord 0x5001#16 = false ∧ wellFormedWord 0x5AB1#16 = false ∧ wellFormedWord 0x5FFF#16 = false := by decide

theorem test_class8_minor_ill_formed :
    wellFormedWord 0x8005#16 = false ∧ wellFormedWord 0x8ABE#16 = false ∧ wellFormedWord 0x8ABF#16 = false := by decide

theorem test_classes_9_to_F_ill_formed :
    wellFormedWord 0x9000#16 = false ∧ wellFormedWord 0xA000#16 = false ∧ wellFormedWord 0xB123#16 = false ∧
    wellFormedWord 0xC0FF#16 = false ∧ wellFormedWord 0xD123#16 = false ∧ wellFormedWord 0xE09E#16 = false ∧
    wellFormedWord 0xFFFF#16 = false := by decide

theorem test_host_write_above_memory_ill_formed :
    HostOp.wellFormed (.writeMem 0x1000 0x00#8) = false ∧ HostOp.wellFormed (.writeMem 0xFFF 0x00#8) = true := by decide

/-! ## Decode: every row, words of §2.1 as bytes in memory order; and the host's reading of the table -/

theorem test_decode_control_flow :
    decodeBytes [0x00, 0x00] = .ok (.halt, []) ∧ decodeBytes [0x00, 0xEE] = .ok (.ret, []) ∧
    decodeBytes [0x12, 0x22] = .ok (.jmp 0x222, []) ∧ decodeBytes [0x2F, 0xFF] = .ok (.call 0xFFF, []) := by decide

theorem test_decode_skips :
    decodeBytes [0x3A, 0x7F] = .ok (.skipEqImm 0xA 0x7F, []) ∧ decodeBytes [0x4B, 0x80] = .ok (.skipNeImm 0xB 0x80, []) ∧
    decodeBytes [0x5C, 0xD0] = .ok (.skipEqReg 0xC 0xD, []) := by decide

theorem test_decode_immediate :
    decodeBytes [0x6E, 0x01] = .ok (.loadImm 0xE 0x01, []) ∧ decodeBytes [0x7F, 0xFF] = .ok (.addImm 0xF 0xFF, []) := by decide

theorem test_decode_register_alu :
    decodeBytes [0x81, 0x20] = .ok (.loadReg 1 2, []) ∧ decodeBytes [0x83, 0x41] = .ok (.orReg 3 4, []) ∧
    decodeBytes [0x85, 0x62] = .ok (.andReg 5 6, []) ∧ decodeBytes [0x87, 0x83] = .ok (.xorReg 7 8, []) ∧
    decodeBytes [0x89, 0xA4] = .ok (.addReg 9 0xA, []) := by decide

theorem test_decode_unimplemented :
    decodeBytes [0x89, 0xA5] = .error (.unimplemented 0x89A5) ∧ decodeBytes [0xEE, 0x00] = .error (.unimplemented 0xEE00) ∧
    decodeBytes [0x51, 0x21] = .error (.unimplemented 0x5121) ∧ decodeBytes [0x12] = .error .truncated := by decide

theorem test_decodeTableWord : decodeTableWord 16 0x00EE = some .ret ∧ decodeTableWord 16 0x8004 = some (.addReg 0 0) := by decide

theorem test_withFetchWord_runs :
    seen (·.reg 0xA) (step (State.reset.withFetchWord 16 0x6A7F)) = some 0x7F ∧
    (State.reset.withFetchWord 16 0x6A7F).mem = [(0, 0x6A#8), (1, 0x7F#8)] := by decide

/-! ## Fetch and faults (§2.2, §2.3) -/

theorem test_unimplemented_word :
    seen (fun t => (t.runState, t.fault, t.pc)) (step (fetchAt 0x200 0x00 0xE0)) =
      some (.faulted, ⟨.unimplementedOpcode, 0x00E0⟩, 0x202) := by decide

theorem test_fetch_at_last_slot :
    seen (fun t => (t.reg 0, t.pc, t.runState)) (step (fetchAt 0xFFE 0x60 0x01)) = some (0x01, 0x1000, .fetching) := by decide

theorem test_fetch_out_of_bounds :
    seen (fun t => (t.runState, t.fault, t.pc)) (step { State.reset with pc := 0xFFF }) =
      some (.faulted, ⟨.outOfBoundsFetch, 0x0FFF⟩, 0xFFF) := by decide

theorem test_fetch_at_odd_pc :
    seen (fun t => (t.reg 0, t.pc)) (step (fetchAt 0x101 0x60 0x2A)) = some (0x2A, 0x103) := by decide

/-! ## Control flow (§2.4) -/

theorem test_halt :
    seen (fun t => (t.runState, t.pc, t.sp, t.fault)) (step { fetchAt 0x200 0x00 0x00 with sp := 3 }) =
      some (.halted, 0x202, 3, ⟨.none, 0⟩) := by decide

theorem test_ret_pops :
    seen (fun t => (t.sp, t.pc, t.slot 1))
      (step { fetchAt 0x304 0x00 0xEE with sp := 2, stack := (State.reset.stack.set 0 0x0002).set 1 0x0102 }) =
      some (1, 0x102, 0x0102) := by decide

theorem test_ret_underflow :
    seen (fun t => (t.runState, t.fault, t.sp, t.pc)) (step (fetchAt 0x200 0x00 0xEE)) =
      some (.faulted, ⟨.stackUnderflow, 0x00EE⟩, 0, 0x202) := by decide

theorem test_jmp : seen (·.pc) (step (fetchAt 0x000 0x12 0x22)) = some 0x222 := by decide

theorem test_jmp_to_last_byte : seen (fun t => (t.pc, t.runState)) (step (fetchAt 0x200 0x1F 0xFF)) = some (0xFFF, .fetching) := by decide

theorem test_call_sixteenth_frame :
    seen (fun t => (t.slot 15, t.sp, t.pc)) (step { fetchAt 0x200 0x2A 0xBC with sp := 15 }) = some (0x0202, 16, 0xABC) := by decide

theorem test_call_overflow :
    seen (fun t => (t.fault, t.sp, t.slot 15, t.pc))
      (step { fetchAt 0x200 0x2A 0xBC with sp := 16, stack := State.reset.stack.set 15 0x0777 }) =
      some (⟨.stackOverflow, 0x2ABC⟩, 16, 0x0777, 0x202) := by decide

/-! ## Conditional skips (§2.5) -/

theorem test_skipEqImm :
    seen (·.pc) (step ((fetchAt 0x200 0x33 0x2A).writeReg 3 0x2A)) = some 0x204 ∧
    seen (·.pc) (step ((fetchAt 0x200 0x30 0xFF).writeReg 0 0x7F)) = some 0x202 := by decide

theorem test_skipNeImm :
    seen (·.pc) (step (fetchAt 0x200 0x40 0x01)) = some 0x204 ∧
    seen (·.pc) (step ((fetchAt 0x200 0x4A 0x80).writeReg 0xA 0x80)) = some 0x202 := by decide

theorem test_skipEqReg :
    seen (·.pc) (step (((fetchAt 0x200 0x51 0x20).writeReg 1 0x0A).writeReg 2 0x0A)) = some 0x204 ∧
    seen (·.pc) (step (((fetchAt 0x200 0x51 0x20).writeReg 1 0x0A).writeReg 2 0x0B)) = some 0x202 := by decide

/-! ## Immediate operations (§2.6) -/

theorem test_loadImm_flag_register : seen (·.reg 0xF) (step (fetchAt 0x200 0x6F 0xFF)) = some 0xFF := by decide

theorem test_addImm_wraps_flag_kept :
    seen (fun t => (t.reg 2, t.reg 0xF)) (step (((fetchAt 0x200 0x72 0x01).writeReg 2 0xFF).writeReg 0xF 0x01)) =
      some (0x00, 0x01) := by decide

theorem test_addImm_to_flag_register : seen (·.reg 0xF) (step ((fetchAt 0x200 0x7F 0x05).writeReg 0xF 0x01)) = some 0x06 := by decide

/-! ## Register-register family (§2.7) -/

theorem test_loadReg :
    seen (fun t => (t.reg 0, t.reg 1)) (step (((fetchAt 0x200 0x80 0x10).writeReg 0 0x11).writeReg 1 0x37)) =
      some (0x37, 0x37) := by decide

theorem test_or_flag_kept :
    seen (fun t => (t.reg 0, t.reg 0xF))
      (step ((((fetchAt 0x200 0x80 0x11).writeReg 0 0xAA).writeReg 1 0x55).writeReg 0xF 0x01)) = some (0xFF, 0x01) := by decide

theorem test_and : seen (·.reg 0) (step (((fetchAt 0x200 0x80 0x12).writeReg 0 0xFC).writeReg 1 0x3F)) = some 0x3C := by decide

theorem test_xor : seen (·.reg 0) (step (((fetchAt 0x200 0x80 0x13).writeReg 0 0xFF).writeReg 1 0x0F)) = some 0xF0 := by decide

theorem test_addReg_carry :
    seen (fun t => (t.reg 0, t.reg 0xF)) (step (((fetchAt 0x200 0x80 0x14).writeReg 0 0xC8).writeReg 1 0x64)) =
      some (0x2C, 0x01) := by decide

theorem test_addReg_sum_lost_in_flag :
    seen (·.reg 0xF) (step (((fetchAt 0x200 0x8F 0x14).writeReg 0xF 0x05).writeReg 1 0x03)) = some 0x00 := by decide

/-! ## The write window (§2.8, and the history form of rule R164) -/

/-- The last history of §2.8: the later write to address 0 wins. -/
theorem test_last_write_wins :
    ∃ ss, applyAll [.reset, .writeMem 0 0x12, .writeMem 0 0x60, .writeMem 1 0x07, .run 5] .fresh = .next ss ∧
      ss.core.reg 0 = 0x07 ∧ ss.core.runState = .halted ∧ ss.core.pc = 0x0004 := ⟨_, rfl, by decide⟩

/-- A write after a Step, a Run or an Observe is outside rule R164's form; one after a reset is not. -/
theorem test_write_window :
    applyAll [.step, .writeReg 0 1] .fresh = .refused .writeWindowClosed ∧
    applyAll [.run 1, .writeReg 0 1] .fresh = .refused .writeWindowClosed ∧
    applyAll [.observe, .writeMem 0 1] .fresh = .refused .writeWindowClosed ∧
    ∃ ss, applyAll [.step, .observe, .reset, .writeReg 0 1] .fresh = .next ss ∧ ss.core.reg 0 = 1 :=
  ⟨rfl, rfl, rfl, _, rfl, by decide⟩

/-! ## Witnesses: for every statement with hypotheses, a concrete input that meets them -/

theorem witness_EncodeInvertsDecode : decode 0x8FF4#16 = .ok (.addReg 0xF 0xF) := by decide

theorem witness_OpcodeTableIsTheDecode :
    (∃ row ∈ opcodeTable, 0x5FF0#16 &&& row.mask = row.pattern) ∧
    (∀ row ∈ opcodeTable, 0x9000#16 &&& row.mask ≠ row.pattern) := by decide

theorem witness_ResetForgetsEverything :
    (∃ ss', applyAll [.writeReg 0 0x05#8, .step] .fresh = .next ss') ∧
    State.reset.halt.ended ∧ HostOp.run 5 ≠ .reset ∧ ∃ ss', HostOp.apply (.run 5) ⟨State.reset.halt, true⟩ = .next ss' :=
  ⟨⟨_, rfl⟩, .inl rfl, by decide, _, rfl⟩

theorem witness_StepRunsDecodedInstruction :
    let s := fetchAt 0xFFE 0x60 0x01
    s.runState = .fetching ∧ s.pc.toNat ≤ 0xFFE ∧
      decode (s.mem.read s.pc.toNat ++ s.mem.read (s.pc.toNat + 1)) = .ok (.loadImm 0 0x01) := by decide

theorem witness_OutOfBoundsFetchFaults :
    let s := { State.reset with pc := 0xFFF#16 }
    s.runState = .fetching ∧ 0xFFF ≤ s.pc.toNat := by decide

theorem witness_UnimplementedWordFaults :
    (fetchAt 0x200 0x00 0xE0).Fetches 0x00E0#16 ∧ ∀ row ∈ opcodeTable, 0x00E0#16 &&& row.mask ≠ row.pattern :=
  ⟨⟨rfl, by decide⟩, by decide⟩

theorem witness_RunLoopTransitions :
    State.reset.runState = .fetching ∧ State.reset.halt.runState ≠ .fetching := by decide

theorem witness_EndedMachineHoldsItsState :
    State.reset.halt.ended ∧ (State.reset.raise .stackUnderflow 0x00EE#16).ended := ⟨.inl rfl, .inr rfl⟩

/-- One for each clause, at the edges of the ranges of `sp`. -/
theorem witness_RoutinesTouchOnlyTheirState :
    (Instr.halt = .halt) ∧ (Instr.call 0xFFF = .call 0xFFF ∧ ({ State.reset with sp := 16 } : State).sp.val = 16) ∧
    (Instr.ret = .ret ∧ State.reset.sp.val = 0) ∧
    (Instr.ret ≠ .halt ∧ (∀ addr, Instr.ret = .call addr → ({ State.reset with sp := 1 } : State).sp.val < 16) ∧
      (Instr.ret = .ret → 0 < ({ State.reset with sp := 1 } : State).sp.val)) ∧
    (Instr.call 0 ≠ .halt ∧ (∀ addr, Instr.call 0 = .call addr → ({ State.reset with sp := 15 } : State).sp.val < 16) ∧
      (Instr.call 0 = .ret → 0 < ({ State.reset with sp := 15 } : State).sp.val)) := by decide

theorem witness_StepReadsExactlyThePortBytes :
    (∀ a ∈ State.reset.portAddresses, Memory.read [(0x002, 0x01#8)] a.toNat = State.reset.mem.read a.toNat) ∧
    ∃ t, step State.reset = .next t := ⟨by decide, _, rfl⟩

theorem witness_MemoryConstantDuringRun : ∃ t, runFor 2 (fetchAt 0x000 0x12 0x22) = .next t := ⟨_, rfl⟩

theorem witness_RetPopsOrUnderflows :
    ({ State.reset with sp := 16 } : State).sp.val = (15 : Fin 16).val + 1 ∧
    ({ State.reset with sp := 1 } : State).sp.val = (0 : Fin 16).val + 1 ∧ State.reset.sp.val = 0 := by decide

theorem witness_CallPushesOrOverflows :
    ({ State.reset with sp := 15 } : State).sp.val < 16 ∧ ({ State.reset with sp := 16 } : State).sp.val = 16 := by decide

theorem witness_OnlyCallAndRetMoveTheStack :
    (∃ t, step (fetchAt 0x000 0x21 0x00) = .next t) ∧
    ({ fetchAt 0x200 0x2A 0xBC with sp := 16 } : State).Fetches 0x2ABC#16 ∧ (0x2ABC#16).toNat / 0x1000 = 2 ∧
    (fetchAt 0x200 0x00 0xEE).Fetches 0x00EE#16 ∧ (fetchAt 0x200 0x00 0xEE).sp.val = 0 :=
  ⟨⟨_, rfl⟩, ⟨rfl, by decide⟩, by decide, ⟨rfl, by decide⟩, by decide⟩

theorem witness_SixteenNestedCallsFit :
    State.reset.sp.val + (List.replicate 16 (0x000 : Addr)).length ≤ 16 ∧
    ({ State.reset with sp := 16 } : State).sp.val + [(0x000 : Addr)].length = 17 := by decide

/-- A CALL 0x100 at 0x000 whose subroutine is NOP-like ADD.IMM r0, 0 and then RET. -/
def callThenReturn : State :=
  { State.reset with mem := [(0x000, 0x21#8), (0x100, 0x70#8), (0x103, 0xEE#8)] }

theorem witness_ReturnResumesAfterTheCall : ∃ t u : State,
    callThenReturn.Fetches 0x2100#16 ∧ decode 0x2100#16 = .ok (.call 0x100) ∧ callThenReturn.sp.val < 16 ∧
    step callThenReturn = .next t ∧
    (∀ m, m ≤ 1 → ∀ v, runFor m t = .next v → callThenReturn.sp.val < v.sp.val) ∧
    runFor 1 t = .next u ∧ u.sp.val = callThenReturn.sp.val + 1 ∧ u.Fetches 0x00EE#16 := by
  refine ⟨_, _, ⟨rfl, by decide⟩, by decide, by decide, rfl, fun m hm v hv => ?_, rfl, by decide, rfl, by decide⟩
  match m, hm with
  | 0, _ => cases hv; decide
  | 1, _ => cases hv; decide

theorem witness_SkipsAdvanceByFourOrTwo :
    ((fetchAt 0xFFE 0x30 0x00).Fetches 0x3000#16 ∧ decode 0x3000#16 = .ok (.skipEqImm 0 0x00) ∧
      (True ↔ (fetchAt 0xFFE 0x30 0x00).reg 0 = 0x00#8)) ∧
    ((fetchAt 0x200 0x40 0x00).Fetches 0x4000#16 ∧ decode 0x4000#16 = .ok (.skipNeImm 0 0x00) ∧
      (False ↔ (fetchAt 0x200 0x40 0x00).reg 0 ≠ 0x00#8)) ∧
    ((fetchAt 0x200 0x53 0x30).Fetches 0x5330#16 ∧ decode 0x5330#16 = .ok (.skipEqReg 3 3) ∧
      (True ↔ (fetchAt 0x200 0x53 0x30).reg 3 = (fetchAt 0x200 0x53 0x30).reg 3)) :=
  ⟨⟨⟨rfl, by decide⟩, by decide, by decide⟩, ⟨⟨rfl, by decide⟩, by decide, by decide⟩, ⟨⟨rfl, by decide⟩, by decide, by decide⟩⟩

theorem witness_AddImmWrapsWithoutFlag : (0xE : RegIdx) ≠ 0xF := by decide

theorem witness_AddRegWrapsAndSetsFlag : (0x0 : RegIdx) ≠ 0xF := by decide

theorem witness_TwoAdditionsAgree : (0xE : RegIdx) ≠ 0xF := by decide

theorem witness_RegisterReadWriteTable :
    let s := State.reset
    let s' := State.reset.writeReg 5 0x77#8
    (∀ j ∈ readsOf (.addReg 0 1), s'.reg j = s.reg j) ∧ s'.pc = s.pc ∧ s'.sp = s.sp ∧ s'.stack = s.stack ∧
    s'.runState = s.runState ∧ s'.fault = s.fault ∧ s' ≠ s ∧
    ∃ t, step (fetchAt 0x200 0x00 0xEE) = .next t ∧ t.runState = .faulted :=
  ⟨by decide, rfl, rfl, rfl, rfl, rfl, by decide, _, rfl, rfl⟩

theorem witness_FaultRecordTellsTheCause :
    (fetchAt 0x200 0x00 0xE0).runState = .fetching ∧ ∃ t, step (fetchAt 0x200 0x00 0xE0) = .next t := ⟨rfl, _, rfl⟩

theorem witness_FaultsArePrecise :
    (∃ t, step (fetchAt 0x200 0x00 0xE0) = .next t ∧ t.runState = .faulted) ∧
    (∃ t, step (fetchAt 0x200 0x00 0xEE) = .next t ∧ t.runState = .faulted) ∧
    (∃ t, step { fetchAt 0x200 0x20 0x00 with sp := 16 } = .next t ∧ t.runState = .faulted) ∧
    (∃ t, step { State.reset with pc := 0x1002 } = .next t ∧ t.runState = .faulted ∧ t.fault.kind = .outOfBoundsFetch) :=
  ⟨⟨_, rfl, rfl⟩, ⟨_, rfl, rfl⟩, ⟨_, rfl, rfl⟩, ⟨_, rfl, rfl, rfl⟩⟩

theorem witness_CleanRunEndsAtHalt :
    (fetchAt 0x000 0x12 0x22).runState = .fetching ∧
    ∃ t, runFor 3 (fetchAt 0x000 0x12 0x22) = .next t ∧ t.endedCleanly := ⟨rfl, _, rfl, rfl⟩

/-- A state at the edges of the invariant: 16 frames, the top one holding 0x1000, and a CALL at the last slot. -/
def edgeOfInvariant : State :=
  { fetchAt 0xFFE 0x2F 0xFE with sp := 16, stack := State.reset.stack.set 15 0x1000 }

theorem witness_StepKeepsInvariant : edgeOfInvariant.Inv ∧ ∃ t, step edgeOfInvariant = .next t := ⟨by decide, _, rfl⟩

theorem witness_HostOpKeepsInvariant :
    Session.fresh.core.Inv ∧ ∃ ss', HostOp.apply (.writeMem 0xFFF 0x01#8) .fresh = .next ss' := ⟨by decide, _, rfl⟩

theorem witness_ReachableStatesAreBounded : ∃ ss, applyAll [.writeMem 0 0x20#8, .run 1] Session.fresh = .next ss ∧
    (0 : Fin 16).val < ss.core.sp.val ∧ ss.core.runState ≠ .faulted := ⟨_, rfl, by decide, by decide⟩

theorem witness_HostWritesBeforeTheRun :
    Session.fresh.windowClosed = false ∧ Session.fresh.core.mem.wf = true ∧ (0xFFF : Nat) ≤ 0xFFF := by decide

theorem witness_WriteWindowClosesWhenTheWritesEnd :
    (HostOp.run 0 = .step ∨ (∃ n, HostOp.run 0 = .run n) ∨ HostOp.run 0 = .observe) ∧
    (HostOp.observe = .step ∨ (∃ n, HostOp.observe = .run n) ∨ HostOp.observe = .observe) ∧
    (⟨State.reset, true⟩ : Session).windowClosed = true ∧ 0xFFF < 0x1000 :=
  ⟨.inr (.inl ⟨0, rfl⟩), .inr (.inr rfl), rfl, by decide⟩

theorem witness_OnlyTheLicensedHistoriesHaveAMeaning :
    (∀ op ∈ [HostOp.writeMem 0xFFF 1, .observe, .run 0, .step], op ≠ .reset) ∧
    (∃ ss, applyAll [.writeMem 0xFFF 1, .observe, .run 0, .step] ⟨State.reset, false⟩ = .next ss) ∧
    applyAll [.run 0, .writeMem 0xFFF 1] ⟨State.reset, false⟩ = .refused .writeWindowClosed :=
  ⟨by decide, ⟨_, rfl⟩, rfl⟩

theorem witness_LastHostWriteWins :
    Session.fresh.windowClosed = false ∧ Session.fresh.core.mem.wf = true ∧ 0xFFF ≤ 0xFFF ∧ (0xFFF : Nat) ≠ 0 ∧
    (0xF : RegIdx) ≠ 0 := by decide

theorem witness_RunResultIsUnique : ∃ t, State.reset.RunsTo t := ⟨_, .inl rfl, 3, rfl⟩

theorem witness_BudgetIsNoEvent : ∃ t, runFor 1 (fetchAt 0x000 0x10 0x00) = .next t ∧ t.runState = .fetching := ⟨_, rfl, rfl⟩

theorem witness_PortsShowTheState :
    (State.reset.writeReg 0 0x00#8).outputs = State.reset.outputs ∧ (State.reset.writeReg 0 0x00#8).mem = State.reset.mem := by
  decide

end Sys2Proof.Tests
end

section
/-! PROOFS. The decoder, as far as the statements about the state need it: a decoded word is the word of its instruction,
and a word in some row of the opcode table decodes. -/

namespace Sys2Proof

/-! ## A word is its fields put together (rules R51, R52) -/

theorem encodeA_fields (iw : Word) : encodeA (opClass iw) (fieldAddr iw) = iw := by
  apply BitVec.eq_of_toNat_eq
  rw [encodeA_toNat, opClass_toNat, fieldAddr_toNat]
  omega

theorem encodeXK_fields (iw : Word) : encodeXK (opClass iw) (fieldX iw) (fieldKk iw) = iw := by
  apply BitVec.eq_of_toNat_eq
  rw [encodeXK_toNat, opClass_toNat, fieldX_val, fieldKk_toNat]
  omega

theorem encodeXY_fields (iw : Word) : encodeXY (opClass iw) (fieldX iw) (fieldY iw) (opMinor iw) = iw := by
  apply BitVec.eq_of_toNat_eq
  rw [encodeXY_toNat, opClass_toNat, fieldX_val, fieldY_val, opMinor_toNat]
  omega

theorem encode_of_decodeClass0 {iw : Word} {i : Instr} (h : decodeClass0 iw = .ok i) : encode i = iw := by
  unfold decodeClass0 at h
  split at h
  next hw => cases h; exact hw.symm
  next =>
    split at h
    next hw => cases h; exact hw.symm
    next => cases h

theorem encode_of_decodeClass5 {iw : Word} {i : Instr} (hc : opClass iw = 0x5#4) (h : decodeClass5 iw = .ok i) :
    encode i = iw := by
  unfold decodeClass5 at h
  split at h
  next hm =>
    cases h
    have hm : opMinor iw = 0x0#4 := BitVec.eq_of_toNat_eq hm
    show encodeXY 0x5#4 (fieldX iw) (fieldY iw) 0x0#4 = iw
    exact hm ▸ hc ▸ encodeXY_fields iw
  next => cases h

theorem encode_of_decodeClass8 {iw : Word} {i : Instr} (hc : opClass iw = 0x8#4) (h : decodeClass8 iw = .ok i) :
    encode i = iw := by
  have key : ∀ m : BitVec 4, (opMinor iw).toNat = m.toNat → encodeXY 0x8#4 (fieldX iw) (fieldY iw) m = iw := fun m hm =>
    BitVec.eq_of_toNat_eq hm ▸ hc ▸ encodeXY_fields iw
  unfold decodeClass8 at h
  split at h
  next hm => cases h; exact key 0x0#4 hm
  next hm => cases h; exact key 0x1#4 hm
  next hm => cases h; exact key 0x2#4 hm
  next hm => cases h; exact key 0x3#4 hm
  next hm => cases h; exact key 0x4#4 hm
  next => cases h

/-- What a decoded instruction encodes to is the word it was read from (rules R54, R62), so a fault record that holds the
encoding holds the fetched word. -/
theorem encode_of_decode {iw : Word} {i : Instr} (h : decode iw = .ok i) : encode i = iw := by
  have keyA : ∀ c : BitVec 4, (opClass iw).toNat = c.toNat → encodeA c (fieldAddr iw) = iw := fun c hc =>
    BitVec.eq_of_toNat_eq hc ▸ encodeA_fields iw
  have keyXK : ∀ c : BitVec 4, (opClass iw).toNat = c.toNat → encodeXK c (fieldX iw) (fieldKk iw) = iw := fun c hc =>
    BitVec.eq_of_toNat_eq hc ▸ encodeXK_fields iw
  unfold decode at h
  split at h
  next => exact encode_of_decodeClass0 h
  next hc => cases h; exact keyA 0x1#4 hc
  next hc => cases h; exact keyA 0x2#4 hc
  next hc => cases h; exact keyXK 0x3#4 hc
  next hc => cases h; exact keyXK 0x4#4 hc
  next hc => exact encode_of_decodeClass5 (BitVec.eq_of_toNat_eq hc) h
  next hc => cases h; exact keyXK 0x6#4 hc
  next hc => cases h; exact keyXK 0x7#4 hc
  next hc => exact encode_of_decodeClass8 (BitVec.eq_of_toNat_eq hc) h
  next => cases h

/-! ## The words of CALL and RET -/

theorem encode_call_div (addr : Addr) : (encode (.call addr)).toNat / 0x1000 = 2 := by
  have := addr.isLt
  rw [encode, encodeA_toNat, BitVec.toNat_ofNat]
  omega

/-- A word of class 2 is the CALL of its address field (rule R54). -/
theorem decode_of_class2 {iw : Word} (h : iw.toNat / 0x1000 = 2) : decode iw = .ok (.call (fieldAddr iw)) := by
  have hc : (opClass iw).toNat = 2 := by rw [opClass_toNat, h]
  simp only [decode, hc]

theorem decode_ret : decode 0x00EE#16 = .ok .ret := rfl

/-! ## Every row of the opcode table decodes (rules R54, R57) -/

theorem opClass_and (iw mask : Word) : opClass (iw &&& mask) = opClass iw &&& opClass mask :=
  BitVec.extractLsb'_and

theorem opMinor_and (iw mask : Word) : opMinor (iw &&& mask) = opMinor iw &&& opMinor mask :=
  BitVec.extractLsb'_and

/-- A word that a row selects has the row's `op_class`, and its `op_minor` where the mask asks for it. -/
theorem fields_of_selects {row : OpcodeRow} {iw : Word} (hrow : row ∈ opcodeTable) (h : row.selects iw = true) :
    opClass iw = opClass row.pattern ∧ (opMinor row.mask = 0xF#4 → opMinor iw = opMinor row.pattern) := by
  have hmask : opClass row.mask = 0xF#4 := (by decide : ∀ row ∈ opcodeTable, opClass row.mask = 0xF#4) row hrow
  have hand : iw &&& row.mask = row.pattern := beq_iff_eq.mp h
  rw [← hand, opClass_and, opMinor_and, hmask, Laws.and_ones]
  exact ⟨rfl, fun hm => by rw [hm, Laws.and_ones]⟩

/-- A word that a row selects decodes: by its class alone, by its class and `op_minor`, or as the one word of HALT or RET. -/
theorem decode_ok_of_selects {row : OpcodeRow} {iw : Word} (hrow : row ∈ opcodeTable) (h : row.selects iw = true) :
    ∃ i, decode iw = .ok i := by
  obtain ⟨hc, hm⟩ := fields_of_selects hrow h
  have hand : iw &&& row.mask = row.pattern := beq_iff_eq.mp h
  simp only [opcodeTable, List.cons_append, List.nil_append, List.mem_cons, List.not_mem_nil, or_false] at hrow
  have whole : ∀ w : Word, iw &&& 0xFFFF#16 = w → iw = w := fun w hw => (BitVec.and_allOnes (x := iw)).symm.trans hw
  rcases hrow with rfl | rfl | rfl | rfl | rfl | rfl | rfl | rfl | rfl | rfl | rfl | rfl | rfl | rfl
  case inl => exact ⟨.halt, by rw [whole _ hand]; rfl⟩
  case inr.inl => exact ⟨.ret, by rw [whole _ hand]; rfl⟩
  all_goals
    simp (disch := decide) only [decode, decodeClass5, decodeClass8, hc, hm]
    exact ⟨_, rfl⟩

/-- The default arm of the dispatch is taken only by words in no row of the table (rule R57). -/
theorem wellFormedWord_of_decode_error {iw : Word} {e : DecodeError} (h : decode iw = .error e) :
    wellFormedWord iw = false := by
  by_contra hw
  obtain ⟨row, hrow, hsel⟩ := List.any_eq_true.mp (Bool.not_eq_false _ ▸ hw)
  obtain ⟨i, hi⟩ := decode_ok_of_selects hrow hsel
  rw [h] at hi
  cases hi

end Sys2Proof
end

section
/-! PROOFS. What an instruction and a step can do, said once: an equation for CALL and RET at every `sp`, then one
inversion for `exec` and one for `step`, and the frames that follow from them. -/

namespace Sys2Proof.Machine

variable {s t : State}

/-! ## CALL and RET -/

/-- The state after a CALL with room on the stack: `pc` pushed, then set to the address (rule R93). -/
def State.afterCall (s : State) (addr : Addr) (h : s.sp.val < 16) : State :=
  { s with stack := s.stack.set s.sp.val s.pc h, sp := ⟨s.sp.val + 1, Nat.succ_lt_succ h⟩, pc := targetOf addr }

/-- The state after a RET whose top live frame is `k`: the frame dropped, its slot in `pc` and left as it was (rule R91). -/
def State.afterRet (s : State) (k : Fin 16) : State := { s with sp := k.castSucc, pc := s.slot k }

theorem State.afterCall_slot (addr : Addr) (h : s.sp.val < 16) (k : Fin 16) :
    (s.afterCall addr h).slot k = if k.val = s.sp.val then s.pc else s.slot k := by
  simp only [State.afterCall, State.slot, Fin.getElem_fin, Vector.getElem_set, eq_comm]

theorem State.afterCall_sp (addr : Addr) (h : s.sp.val < 16) : (s.afterCall addr h).sp.val = s.sp.val + 1 := rfl

/-- CALL with room on the stack (rule R93). -/
theorem exec_call_of_lt (addr : Addr) (h : s.sp.val < 16) :
    exec (.call addr) s = .next (s.afterCall addr h) := by
  simp only [exec, execCall, State.push_of_lt s.pc h]
  rfl

/-- CALL on a full stack (rules R93, R131). -/
theorem exec_call_of_full (addr : Addr) (h : s.sp.val = 16) :
    exec (.call addr) s = .next (s.raise .stackOverflow (encode (.call addr))) := by
  simp only [exec, execCall, State.push_of_full s.pc h]

/-- RET with a live frame (rule R91). -/
theorem exec_ret_of_pos {k : Fin 16} (h : s.sp.val = k.val + 1) :
    exec .ret s = .next (s.afterRet k) := by
  have hk : s.sp.val - 1 = k.val := by omega
  simp only [exec, execRet, State.pop_of_pos (show 0 < s.sp.val by omega), hk]
  rfl

/-- RET on an empty stack (rules R91, R132). -/
theorem exec_ret_of_empty (h : s.sp.val = 0) : exec .ret s = .next (s.raise .stackUnderflow 0x00EE#16) := by
  simp only [exec, execRet, State.pop_of_empty h]
  rfl

/-- An `sp` above 0 is one above the index of the top live frame (rule R17). -/
theorem State.exists_top_of_pos (h : 0 < s.sp.val) : ∃ k : Fin 16, s.sp.val = k.val + 1 :=
  ⟨⟨s.sp.val - 1, by omega⟩, by simp only; omega⟩

/-- Where there is no room for one more frame the stack is full (rule R17). -/
theorem State.full_of_not_lt (h : ¬ s.sp.val < 16) : s.sp.val = 16 := by
  omega

/-! ## All that an instruction can do -/

/-- The next states of an instruction: HALT stops; RET and CALL move the stack or raise; a skip or a jump moves `pc`; every
other instruction writes registers of its column in the table of rule R13. -/
inductive ExecEffect (s : State) : Instr → State → Prop
  | halts : ExecEffect s .halt s.halt
  | returns (k : Fin 16) (h : s.sp.val = k.val + 1) : ExecEffect s .ret (s.afterRet k)
  | underflows (h : s.sp.val = 0) : ExecEffect s .ret (s.raise .stackUnderflow 0x00EE#16)
  | calls (addr : Addr) (h : s.sp.val < 16) : ExecEffect s (.call addr) (s.afterCall addr h)
  | overflows (addr : Addr) (h : s.sp.val = 16) :
      ExecEffect s (.call addr) (s.raise .stackOverflow (encode (.call addr)))
  | jumps (addr : Addr) : ExecEffect s (.jmp addr) (s.setPc (targetOf addr))
  | skips (i : Instr) (taken : Bool) (h : writesOf i = []) : ExecEffect s i (s.skipIf taken)
  | writes (i : Instr) (regs : Vector Byte 16) (h : SameRegsExcept (writesOf i) s { s with regs := regs }) :
      ExecEffect s i { s with regs := regs }

/-- A write of one register, for an instruction that lists that register in rule R13's column "writes". -/
theorem ExecEffect.writeReg {i : Instr} {x : RegIdx} (h : x ∈ writesOf i) (v : Byte) : ExecEffect s i (s.writeReg x v) :=
  .writes i _ fun j hj => (s.writeReg_reg x j v).trans (if_neg fun e : j = x => hj (e ▸ h))

/-- ADD.REG writes its destination, then the flag register (rule R124). -/
theorem ExecEffect.writeReg_writeFlag (x y : RegIdx) (v w : Byte) :
    ExecEffect s (.addReg x y) ((s.writeReg x v).writeReg 0xF w) :=
  .writes _ _ fun j hj => by
    simp only [writesOf, List.mem_cons, List.not_mem_nil, or_false, not_or] at hj
    exact ((s.writeReg x v).writeReg_reg 0xF j w).trans (by simp only [State.writeReg_reg, hj, if_false])

theorem execEffect_of_exec {i : Instr} (h : exec i s = .next t) : ExecEffect s i t := by
  cases i with
  | halt => cases h; exact .halts
  | ret =>
    by_cases hsp : s.sp.val = 0
    · rw [exec_ret_of_empty hsp] at h; cases h; exact .underflows hsp
    · obtain ⟨k, hk⟩ := State.exists_top_of_pos (Nat.pos_of_ne_zero hsp)
      rw [exec_ret_of_pos hk] at h; cases h; exact .returns k hk
  | jmp addr => cases h; exact .jumps addr
  | call addr =>
    by_cases hsp : s.sp.val < 16
    · rw [exec_call_of_lt addr hsp] at h; cases h; exact .calls addr hsp
    · have hfull := State.full_of_not_lt hsp
      rw [exec_call_of_full addr hfull] at h; cases h; exact .overflows addr hfull
  | skipEqImm x kk => cases h; exact .skips _ _ rfl
  | skipNeImm x kk => cases h; exact .skips _ _ rfl
  | skipEqReg x y => cases h; exact .skips _ _ rfl
  | loadImm x kk => cases h; exact .writeReg (List.mem_singleton_self x) _
  | addImm x kk => cases h; exact .writeReg (List.mem_singleton_self x) _
  | loadReg x y => cases h; exact .writeReg (List.mem_singleton_self x) _
  | orReg x y => cases h; exact .writeReg (List.mem_singleton_self x) _
  | andReg x y => cases h; exact .writeReg (List.mem_singleton_self x) _
  | xorReg x y => cases h; exact .writeReg (List.mem_singleton_self x) _
  | addReg x y => cases h; exact .writeReg_writeFlag x y _ _

/-! ## What an instruction leaves unchanged -/

/-- An instruction writes no register outside rule R13's column "writes". -/
theorem ExecEffect.sameRegsExcept {i : Instr} (he : ExecEffect s i t) : SameRegsExcept (writesOf i) s t := by
  cases he with
  | writes _ _ h => exact h
  | skips => rw [State.skipIf_eq]; exact fun _ _ => rfl
  | halts | returns | underflows | calls | overflows | jumps => exact fun _ _ => rfl

/-- No instruction writes memory (rule R31). -/
theorem ExecEffect.mem_eq {i : Instr} (he : ExecEffect s i t) : t.mem = s.mem := by
  cases he with
  | skips => rw [State.skipIf_eq, State.setPc_mem]
  | halts | returns | underflows | calls | overflows | jumps | writes => rfl

/-- An instruction that ends FAULTED from FETCHING has written no register. -/
theorem ExecEffect.regs_of_faulted {i : Instr} (he : ExecEffect s i t) (hrun : s.runState = .fetching)
    (ht : t.runState = .faulted) : t.regs = s.regs := by
  cases he with
  | writes => exact absurd (hrun.symm.trans ht) (by decide)
  | skips => rw [State.skipIf_eq, State.setPc_regs]
  | halts | returns | underflows | calls | overflows | jumps => rfl

/-! ## All that a step can do -/

/-- A fetch is refused only where its second byte does not exist (rules R34, R72). -/
theorem State.le_pc_of_fetch_none (h : s.fetch = none) : 0xFFF ≤ s.pc.toNat := by
  rcases s.fetch_cases with ⟨hw, -⟩ | ⟨-, hpc⟩
  · rw [h] at hw; cases hw
  · exact hpc

/-- A fetch succeeds only below 0xFFF (rules R34, R72). -/
theorem State.Fetches.pc_le {iw : Word} (h : s.Fetches iw) : s.pc.toNat ≤ 0xFFE := by
  rcases s.fetch_cases with ⟨-, hpc⟩ | ⟨hw, -⟩
  · exact hpc
  · rw [h.2] at hw; cases hw

/-- After a successful fetch the advanced `pc` is at most 0x1000 (rule R15). -/
theorem State.Fetches.advancePc_le {iw : Word} (h : s.Fetches iw) : s.advancePc.pc.toNat ≤ 0x1000 := by
  have hle := h.pc_le
  rw [State.advancePc_pc, pc_add_two_toNat (hle.trans (by decide))]
  omega

/-- The next states of a step: none but itself once the run has ended, the two faults of the run loop, or the effect of the
fetched instruction with `pc` advanced (rules R71 to R76). -/
inductive StepEffect (s : State) : State → Prop
  | ended (h : s.runState ≠ .fetching) : StepEffect s s
  | refused (hf : s.runState = .fetching) (hpc : 0xFFF ≤ s.pc.toNat) : StepEffect s (s.raise .outOfBoundsFetch s.pc)
  | unimplemented (iw : Word) (hf : s.Fetches iw) (hw : wellFormedWord iw = false) :
      StepEffect s (s.advancePc.raise .unimplementedOpcode iw)
  | runs (iw : Word) (i : Instr) (hf : s.Fetches iw) (hd : decode iw = .ok i) {t : State}
      (he : ExecEffect s.advancePc i t) : StepEffect s t

theorem stepEffect_of_step (h : step s = .next t) : StepEffect s t := by
  by_cases hf : s.runState = .fetching
  · rcases hw : s.fetch with _ | iw
    · rw [step_of_refused hf hw] at h
      cases h
      exact .refused hf (State.le_pc_of_fetch_none hw)
    · cases hd : decode iw with
      | error e =>
        rw [step_of_unimplemented hf hw hd] at h
        cases h
        exact .unimplemented iw ⟨hf, hw⟩ (wellFormedWord_of_decode_error hd)
      | ok i =>
        rw [step_of_decoded hf hw hd] at h
        exact .runs iw i ⟨hf, hw⟩ hd (execEffect_of_exec h)
  · rw [step_of_ended hf] at h
    cases h
    exact .ended hf

/-- A step that ends FAULTED leaves every register as it was (rules R78, R139). -/
theorem step_regs_of_faulted (hstep : step s = .next t) (ht : t.runState = .faulted) : t.regs = s.regs := by
  cases stepEffect_of_step hstep with
  | ended | refused | unimplemented => rfl
  | runs iw i hf hd he => exact he.regs_of_faulted hf.1 ht

theorem step_of_fetches {iw : Word} {i : Instr} (h : s.Fetches iw) (hd : decode iw = .ok i) :
    step s = exec i s.advancePc :=
  step_of_decoded h.1 h.2 hd

end Sys2Proof.Machine
end

section
/-! PROOFS. The invariant of the reachable states (rules R15, R22): it holds at reset, every step keeps it, and so does
every host operation. -/

namespace Sys2Proof.Machine

variable {s t : State}

/-- Settles O38, by computation on the one fixed state. -/
theorem resetMeetsInvariant : Obligations.ResetMeetsInvariant := by
  unfold Obligations.ResetMeetsInvariant
  decide

/-- A record that no fault has written explains a state that is not FAULTED (rule R22). -/
theorem State.faultExplained_of_idle (hrun : s.runState ≠ .faulted) (hidle : s.fault = .idle) : s.FaultExplained :=
  ⟨fun _ => hidle, fun h => absurd h hrun⟩

/-- A CALL from a `pc` within memory keeps the bound of the live frames: the new frame is that `pc`, the old ones are as they
were (rule R15). -/
theorem State.afterCall_framesBounded (addr : Addr) (hframes : s.FramesBounded) (hpc : s.pc.toNat ≤ 0x1000)
    (hsp : s.sp.val < 16) : (s.afterCall addr hsp).FramesBounded := by
  intro k hk
  rw [State.afterCall_sp] at hk
  rw [State.afterCall_slot]
  split
  next => exact hpc
  next => exact hframes k (by omega)

/-- An instruction that runs from FETCHING with an advanced `pc` leaves a state of the invariant. -/
theorem ExecEffect.inv {i : Instr} (he : ExecEffect s i t) (hmem : s.mem.wf = true) (hpc : s.pc.toNat ≤ 0x1000)
    (hframes : s.FramesBounded) (hrun : s.runState = .fetching) (hidle : s.fault = .idle) : t.Inv := by
  have hpc' : s.PcBounded := hpc.trans (by decide)
  have htarget : ∀ addr : Addr, (targetOf addr).toNat ≤ 0x1002 := fun addr => by
    rw [targetOf_toNat]; have := addr.isLt; omega
  have hnf : s.runState ≠ .faulted := by rw [hrun]; decide
  cases he with
  | halts => exact ⟨hmem, hpc', hframes, State.faultExplained_of_idle (fun h => nomatch h) hidle⟩
  | returns k hk =>
    have hk' : k.val < s.sp.val := by omega
    exact ⟨hmem, (hframes k hk').trans (by decide), fun j hj => hframes j (Nat.lt_trans hj hk'),
      State.faultExplained_of_idle hnf hidle⟩
  | underflows hsp => exact ⟨hmem, hpc', hframes, fun h => absurd rfl h, fun _ => .inr (.inl ⟨rfl, hsp, rfl⟩)⟩
  | calls addr hsp =>
    exact ⟨hmem, htarget addr, State.afterCall_framesBounded addr hframes hpc hsp, State.faultExplained_of_idle hnf hidle⟩
  | overflows addr hsp =>
    exact ⟨hmem, hpc', hframes, fun h => absurd rfl h, fun _ => .inl ⟨rfl, hsp, encode_call_div addr⟩⟩
  | jumps addr => exact ⟨hmem, htarget addr, hframes, State.faultExplained_of_idle hnf hidle⟩
  | skips i taken =>
    rw [State.skipIf_eq]
    refine ⟨hmem, ?_, hframes, State.faultExplained_of_idle hnf hidle⟩
    cases taken with
    | false => exact hpc'
    | true => show (s.pc + 2#16).toNat ≤ 0x1002; rw [pc_add_two_toNat hpc]; omega
  | writes i regs => exact ⟨hmem, hpc', hframes, State.faultExplained_of_idle hnf hidle⟩

/-- Settles O39, by the cases of a step: an ended machine and the two faults of the run loop leave memory and frames alone,
and an instruction runs with an advanced `pc` that is at most 0x1000. -/
theorem stepKeepsInvariant : Obligations.StepKeepsInvariant := by
  unfold Obligations.StepKeepsInvariant
  intro s t hinv hstep
  obtain ⟨hmem, hpc, hframes, hexplained⟩ := hinv
  cases stepEffect_of_step hstep with
  | ended => exact ⟨hmem, hpc, hframes, hexplained⟩
  | refused _ hout =>
    exact ⟨hmem, hpc, hframes, fun h => absurd rfl h, fun _ => .inr (.inr (.inr ⟨rfl, rfl, hout⟩))⟩
  | unimplemented iw hf hw =>
    have hadv : s.advancePc.PcBounded := hf.advancePc_le.trans (by decide)
    exact ⟨hmem, hadv, hframes, fun h => absurd rfl h, fun _ => .inr (.inr (.inl ⟨rfl, hw⟩))⟩
  | runs iw i hf hd he =>
    have hidle : s.fault = .idle := hexplained.1 (by rw [hf.1]; decide)
    exact he.inv hmem hf.advancePc_le hframes hf.1 hidle

/-- Whatever every step keeps, a run of any length keeps (rule R77). -/
theorem runFor_keeps {P : State → Prop} (hstep : ∀ s t, P s → step s = .next t → P t) :
    ∀ {n : Nat} {s t : State}, P s → runFor n s = .next t → P t
  | 0, s, t, hs, h => by cases h; exact hs
  | n + 1, s, t, hs, h => by
    unfold runFor at h
    split at h
    next =>
      split at h
      next u hu => exact runFor_keeps hstep (hstep s u hs hu) h
      next => cases h
      next => cases h
    next => cases h; exact hs

/-- Whatever every host operation keeps, a history keeps. -/
theorem applyAll_keeps {P : Session → Prop} (hop : ∀ op ss ss', P ss → HostOp.apply op ss = .next ss' → P ss') :
    ∀ {ops : List HostOp} {ss ss' : Session}, P ss → applyAll ops ss = .next ss' → P ss'
  | [], ss, ss', hs, h => by cases h; exact hs
  | op :: ops, ss, ss', hs, h => by
    obtain ⟨u, hu, hrest⟩ := applyAll_cons_next h
    exact applyAll_keeps hop (hop op ss u hs hu) hrest

/-- The machine a Step or a Run leaves is the one its steps lead to. -/
theorem Session.advanced_eq_next {o : Host.Outcome State Fault Refusal} {ss : Session} (h : Session.advanced o = .next ss) :
    o = .next ss.core := by
  cases o <;> cases h
  rfl

/-- A host write with a meaning leaves the machine it was given. -/
theorem Session.core_of_hostWrite {ss ss' : Session} (h : ss.hostWrite t = .next ss') : ss'.core = t := by
  cases hc : ss.windowClosed with
  | false => rw [Session.hostWrite_of_open hc] at h; cases h; rfl
  | true => rw [Session.hostWrite_of_closed hc] at h; cases h

/-- Settles O40, by cases on the operation: a Step and a Run by `stepKeepsInvariant`, a memory write because it is to a byte
that exists. -/
theorem hostOpKeepsInvariant : Obligations.HostOpKeepsInvariant := by
  unfold Obligations.HostOpKeepsInvariant
  intro op ss ss' hinv h
  cases op with
  | reset => cases h; exact resetMeetsInvariant
  | writeMem a b =>
    by_cases ha : a < 4096
    · rw [HostOp.apply_writeMem_of_lt ha] at h
      rw [Session.core_of_hostWrite h]
      obtain ⟨hmem, hrest⟩ := hinv
      exact ⟨Memory.write_wf hmem ha b, hrest⟩
    · rw [HostOp.apply_writeMem_of_ge (Nat.not_lt.mp ha)] at h; cases h
  | writeReg i b => rw [Session.core_of_hostWrite h]; exact hinv
  | step => exact stepKeepsInvariant _ _ hinv (Session.advanced_eq_next h)
  | run budget => exact runFor_keeps stepKeepsInvariant hinv (Session.advanced_eq_next h)
  | observe => cases h; exact hinv

/-- Settles O41: the invariant holds at construction and every host operation keeps it. -/
theorem reachableStatesAreBounded : Obligations.ReachableStatesAreBounded := by
  unfold Obligations.ReachableStatesAreBounded
  intro ops ss h
  obtain ⟨-, hpc, hframes, hidle, -⟩ :=
    applyAll_keeps (P := fun ss => ss.core.Inv) hostOpKeepsInvariant (ss := .fresh) resetMeetsInvariant h
  exact ⟨hpc, hframes, hidle⟩

end Sys2Proof.Machine
end

section
/-! PROOFS. The call stack: only CALL and RET move it, and it holds sixteen frames (rules R16 to R18, R93). -/

namespace Sys2Proof.Machine

variable {s t : State}

/-- What an instruction does to the stack: nothing, a push of the advanced `pc`, or a pop that leaves the slots. -/
theorem ExecEffect.stack_cases {i : Instr} (he : ExecEffect s i t) :
    SameStack s t ∨
    (∃ addr, i = .call addr ∧ s.sp.val < 16 ∧ t.sp.val = s.sp.val + 1 ∧
      ∀ k : Fin 16, t.slot k = if k.val = s.sp.val then s.pc else s.slot k) ∨
    (i = .ret ∧ 0 < s.sp.val ∧ t.sp.val + 1 = s.sp.val ∧ ∀ k : Fin 16, t.slot k = s.slot k) := by
  have same : SameStack s s := ⟨fun _ => rfl, rfl⟩
  cases he with
  | halts => exact .inl same
  | returns k hk => exact .inr (.inr ⟨rfl, by omega, hk.symm, fun _ => rfl⟩)
  | underflows => exact .inl same
  | calls addr hsp => exact .inr (.inl ⟨addr, rfl, hsp, rfl, State.afterCall_slot addr hsp⟩)
  | overflows => exact .inl same
  | jumps => exact .inl same
  | skips => rw [State.skipIf_eq]; exact .inl same
  | writes => exact .inl same

/-- Settles O22, by the cases of a step; a decoded CALL or RET tells the word that was fetched. -/
theorem onlyCallAndRetMoveTheStack : Obligations.OnlyCallAndRetMoveTheStack := by
  unfold Obligations.OnlyCallAndRetMoveTheStack
  constructor
  · intro s t hstep
    have same : SameStack s s := ⟨fun _ => rfl, rfl⟩
    cases stepEffect_of_step hstep with
    | ended => exact .inl same
    | refused => exact .inl same
    | unimplemented => exact .inl same
    | runs iw i hf hd he =>
      rcases he.stack_cases with hsame | ⟨addr, rfl, hcall⟩ | ⟨rfl, hret⟩
      · exact .inl hsame
      · exact .inr (.inl ⟨iw, hf, encode_of_decode hd ▸ encode_call_div addr, hcall⟩)
      · have hiw : 0x00EE#16 = iw := encode_of_decode hd
        exact .inr (.inr ⟨hiw ▸ hf, hret⟩)
  · rintro s iw hf (⟨hcall, hfull⟩ | ⟨rfl, hempty⟩)
    · exact ⟨_, (step_of_fetches hf (decode_of_class2 hcall)).trans (exec_call_of_full _ hfull), rfl, fun _ => rfl, rfl⟩
    · exact ⟨_, (step_of_fetches hf decode_ret).trans (exec_ret_of_empty hempty), rfl, fun _ => rfl, rfl⟩

/-- One routine of a sequence of CALLs. -/
theorem callAll_cons_of_next {addr : Addr} (h : exec (.call addr) s = .next t) (addrs : List Addr) :
    callAll (addr :: addrs) s = callAll addrs t := by
  simp only [callAll, h]

/-- CALLs with room for all of them: one more frame each, and nothing else but `pc` and the slots changes. -/
theorem callAll_of_room : ∀ (targets : List Addr) (s : State), s.sp.val + targets.length ≤ 16 →
    ∃ t, callAll targets s = .next t ∧ t.sp.val = s.sp.val + targets.length ∧
      SameRegsExcept [] s t ∧ SameMemory s t ∧ SameRunState s t
  | [], s, _ => ⟨s, rfl, rfl, fun _ _ => rfl, fun _ => rfl, rfl, rfl⟩
  | addr :: addrs, s, h => by
    rw [List.length_cons] at h ⊢
    have hroom : s.sp.val < 16 := by omega
    have hsp := State.afterCall_sp addr hroom
    rw [callAll_cons_of_next (exec_call_of_lt addr hroom)]
    obtain ⟨t, ht, htsp, hrest⟩ := callAll_of_room addrs (s.afterCall addr hroom) (by omega)
    exact ⟨t, ht, by omega, hrest⟩

/-- One CALL more than there is room for: the last one finds the stack full. -/
theorem callAll_of_one_too_many : ∀ (targets : List Addr) (s : State), s.sp.val + targets.length = 17 →
    ∃ t, callAll targets s = .next t ∧ t.sp.val = 16 ∧ t.runState = .faulted ∧ t.fault.kind = .stackOverflow
  | [], s, h => by rw [List.length_nil] at h; omega
  | addr :: addrs, s, h => by
    rw [List.length_cons] at h
    by_cases hsp : s.sp.val < 16
    · rw [callAll_cons_of_next (exec_call_of_lt addr hsp)]
      exact callAll_of_one_too_many addrs _ (by rw [State.afterCall_sp]; omega)
    · have hfull := State.full_of_not_lt hsp
      have hnil : addrs = [] := List.length_eq_zero_iff.mp (by omega)
      rw [hnil, callAll_cons_of_next (exec_call_of_full addr hfull)]
      exact ⟨_, rfl, hfull, rfl, rfl⟩

/-- Settles O23, by induction on the sequence of CALLs. -/
theorem sixteenNestedCallsFit : Obligations.SixteenNestedCallsFit := by
  unfold Obligations.SixteenNestedCallsFit
  exact fun targets s => ⟨callAll_of_room targets s, callAll_of_one_too_many targets s⟩

end Sys2Proof.Machine
end

section
/-! PROOFS. The registers (rule R13): what an instruction does is compared on two states that agree on the registers it
reads and may differ in every other one and in memory. -/

namespace Sys2Proof.Machine

variable {s s' t t' : State} {i : Instr}

/-! ## Two states alike in all that is neither a register nor memory -/

structure SameControl (s s' : State) : Prop where
  pc : s'.pc = s.pc
  sp : s'.sp = s.sp
  stack : s'.stack = s.stack
  runState : s'.runState = s.runState
  fault : s'.fault = s.fault

theorem SameControl.raise (hc : SameControl s s') (kind : FaultKind) (info : Word) :
    SameControl (s.raise kind info) (s'.raise kind info) :=
  ⟨hc.pc, hc.sp, hc.stack, rfl, rfl⟩

theorem SameControl.halt (hc : SameControl s s') : SameControl s.halt s'.halt :=
  ⟨hc.pc, hc.sp, hc.stack, rfl, hc.fault⟩

theorem SameControl.setPc (hc : SameControl s s') (a : Word) : SameControl (s.setPc a) (s'.setPc a) :=
  ⟨rfl, hc.sp, hc.stack, hc.runState, hc.fault⟩

theorem SameControl.skipIf (hc : SameControl s s') (taken : Bool) : SameControl (s.skipIf taken) (s'.skipIf taken) := by
  rw [State.skipIf_eq, State.skipIf_eq, hc.pc]
  exact hc.setPc _

theorem SameControl.afterCall (hc : SameControl s s') (addr : Addr) (h : s.sp.val < 16) (h' : s'.sp.val < 16) :
    SameControl (s.afterCall addr h) (s'.afterCall addr h') :=
  ⟨rfl, by simp only [State.afterCall, hc.sp], by simp only [State.afterCall, hc.stack, hc.sp, hc.pc], hc.runState, hc.fault⟩

theorem SameControl.afterRet (hc : SameControl s s') (k : Fin 16) : SameControl (s.afterRet k) (s'.afterRet k) :=
  ⟨congrArg (·[k]) hc.stack, rfl, hc.stack, hc.runState, hc.fault⟩

theorem SameControl.writeReg (hc : SameControl s s') (x : RegIdx) (v v' : Byte) :
    SameControl (s.writeReg x v) (s'.writeReg x v') :=
  ⟨hc.pc, hc.sp, hc.stack, hc.runState, hc.fault⟩

/-! ## The comparison, instruction by instruction -/

/-- The instruction answers a next state from both states, and leaves the registers it writes, and all that is neither a
register nor memory, alike in both (rule R13). -/
def ActsAlike (i : Instr) (s s' : State) : Prop :=
  ∃ t t', exec i s = .next t ∧ exec i s' = .next t' ∧ (∀ j ∈ writesOf i, t'.reg j = t.reg j) ∧ SameControl t t'

theorem ActsAlike.of_no_write (hw : writesOf i = []) (h : exec i s = .next t) (h' : exec i s' = .next t')
    (hc : SameControl t t') : ActsAlike i s s' :=
  ⟨t, t', h, h', fun _ hj => absurd hj (hw ▸ List.not_mem_nil), hc⟩

/-- A skip on the same condition moves `pc` alike. -/
theorem ActsAlike.of_skipIf (hw : writesOf i = []) (hc : SameControl s s') {b b' : Bool}
    (h : exec i s = .next (s.skipIf b)) (h' : exec i s' = .next (s'.skipIf b')) (hb : b' = b) : ActsAlike i s s' :=
  .of_no_write hw h (hb ▸ h') (hc.skipIf b)

/-- A write of the same value to the one register in the column "writes". -/
theorem ActsAlike.of_writeReg {x : RegIdx} {v v' : Byte} (hw : writesOf i = [x]) (hc : SameControl s s')
    (h : exec i s = .next (s.writeReg x v)) (h' : exec i s' = .next (s'.writeReg x v')) (hv : v' = v) :
    ActsAlike i s s' := by
  refine ⟨_, _, h, h', fun j hj => ?_, hc.writeReg x v v'⟩
  rw [hw, List.mem_singleton] at hj
  rw [State.writeReg_reg, State.writeReg_reg, if_pos hj, if_pos hj, hv]

theorem actsAlike_call (addr : Addr) (hc : SameControl s s') : ActsAlike (.call addr) s s' := by
  by_cases hsp : s.sp.val < 16
  · have hsp' : s'.sp.val < 16 := hc.sp ▸ hsp
    exact .of_no_write rfl (exec_call_of_lt addr hsp) (exec_call_of_lt addr hsp') (hc.afterCall addr hsp hsp')
  · have hfull := State.full_of_not_lt hsp
    exact .of_no_write rfl (exec_call_of_full addr hfull) (exec_call_of_full addr (hc.sp ▸ hfull)) (hc.raise _ _)

theorem actsAlike_ret (hc : SameControl s s') : ActsAlike .ret s s' := by
  by_cases hsp : s.sp.val = 0
  · exact .of_no_write rfl (exec_ret_of_empty hsp) (exec_ret_of_empty (hc.sp ▸ hsp)) (hc.raise _ _)
  · obtain ⟨k, hk⟩ := State.exists_top_of_pos (Nat.pos_of_ne_zero hsp)
    exact .of_no_write rfl (exec_ret_of_pos hk) (exec_ret_of_pos (hc.sp ▸ hk)) (hc.afterRet k)

/-- The value ADD.REG writes is the sum of two bytes (rule R124). -/
theorem sum8_eq_add (a b : Byte) : sum8 a b = a + b :=
  BitVec.eq_of_toNat_eq (by rw [sum8_toNat, BitVec.toNat_add])

/-- ADD.REG as two register writes, the destination and then the flag (rule R124). -/
theorem exec_addReg (x y : RegIdx) (s : State) : exec (.addReg x y) s =
    .next ((s.writeReg x (s.reg x + s.reg y)).writeReg 0xF (carryFlag (s.reg x) (s.reg y))) := by
  rw [← sum8_eq_add]
  rfl

/-- The registers after ADD.REG: the carry in 0xF, written last, the sum in the destination, the others as before
(rule R124). -/
theorem exec_addReg_regs (x y : RegIdx) (s : State) : ∃ t, exec (.addReg x y) s = .next t ∧
    ∀ j : RegIdx, t.reg j =
      if j = 0xF then (if 256 ≤ (s.reg x).toNat + (s.reg y).toNat then 0x01#8 else 0x00#8)
      else if j = x then s.reg x + s.reg y else s.reg j :=
  ⟨_, exec_addReg x y s, fun j => by rw [State.writeReg_reg, State.writeReg_reg, carryFlag_eq]⟩

theorem actsAlike_addReg {x y : RegIdx} (hc : SameControl s s') (hx : s'.reg x = s.reg x) (hy : s'.reg y = s.reg y) :
    ActsAlike (.addReg x y) s s' := by
  refine ⟨_, _, exec_addReg x y s, exec_addReg x y s', fun j hj => ?_, (hc.writeReg x _ _).writeReg 0xF _ _⟩
  simp only [State.writeReg_reg, hx, hy]
  split
  next => rfl
  next hj15 =>
    have hjx : j = x := (List.mem_cons.mp hj).resolve_right fun h => hj15 (List.mem_singleton.mp h)
    rw [if_pos hjx, if_pos hjx]

theorem State.regEquals_congr {x : RegIdx} {o : Source} (hx : s'.reg x = s.reg x) (ho : o.value s' = o.value s) :
    s'.regEquals x o = s.regEquals x o := by
  simp only [State.regEquals, hx, ho]

/-- The table of rule R13, instruction by instruction. -/
theorem actsAlike (i : Instr) (hreads : ∀ j ∈ readsOf i, s'.reg j = s.reg j) (hc : SameControl s s') :
    ActsAlike i s s' := by
  have fst : ∀ {x l}, readsOf i = x :: l → s'.reg x = s.reg x := fun h => hreads _ (h ▸ List.mem_cons_self)
  have snd : ∀ {x y l}, readsOf i = x :: y :: l → s'.reg y = s.reg y := fun h =>
    hreads _ (h ▸ List.mem_cons_of_mem _ List.mem_cons_self)
  cases i with
  | halt => exact .of_no_write rfl rfl rfl hc.halt
  | ret => exact actsAlike_ret hc
  | jmp addr => exact .of_no_write rfl rfl rfl (hc.setPc _)
  | call addr => exact actsAlike_call addr hc
  | skipEqImm x kk => exact .of_skipIf rfl hc rfl rfl (State.regEquals_congr (fst rfl) rfl)
  | skipNeImm x kk => exact .of_skipIf rfl hc rfl rfl (congrArg (!·) (State.regEquals_congr (fst rfl) rfl))
  | skipEqReg x y => exact .of_skipIf rfl hc rfl rfl (State.regEquals_congr (fst rfl) (snd rfl))
  | loadImm x kk => exact .of_writeReg rfl hc rfl rfl rfl
  | addImm x kk => exact .of_writeReg rfl hc rfl rfl (congrArg (sum8 · kk) (fst rfl))
  | loadReg x y => exact .of_writeReg rfl hc rfl rfl (fst rfl)
  | orReg x y => exact .of_writeReg rfl hc rfl rfl (congrArg₂ (· ||| ·) (fst rfl) (snd rfl))
  | andReg x y => exact .of_writeReg rfl hc rfl rfl (congrArg₂ (· &&& ·) (fst rfl) (snd rfl))
  | xorReg x y => exact .of_writeReg rfl hc rfl rfl (congrArg₂ (· ^^^ ·) (fst rfl) (snd rfl))
  | addReg x y => exact actsAlike_addReg hc (fst rfl) (snd rfl)

/-- Settles O34: the two-state comparison is `actsAlike` with the frame of each execution, ADD.REG is `exec_addReg_regs`,
and a step that faults is `step_regs_of_faulted`. -/
theorem registerReadWriteTable : Obligations.RegisterReadWriteTable := by
  unfold Obligations.RegisterReadWriteTable
  refine ⟨fun i s s' hreads hpc hsp hstack hrun hfault => ?_, exec_addReg_regs,
    fun s t hstep ht j _ => congrArg (·[j]) (step_regs_of_faulted hstep ht)⟩
  obtain ⟨t, t', h, h', hwrites, hc⟩ := actsAlike i hreads ⟨hpc, hsp, hstack, hrun, hfault⟩
  have he := execEffect_of_exec h
  have he' := execEffect_of_exec h'
  exact ⟨t, t', h, h', he.sameRegsExcept, he'.sameRegsExcept, hwrites, hc.pc, hc.sp, hc.stack, hc.runState, hc.fault,
    fun a => congrArg (Memory.read · a) he.mem_eq, fun a => congrArg (Memory.read · a) he'.mem_eq⟩

end Sys2Proof.Machine
end

section
/-! PROOFS. Reset (rule R24) and the output ports (rule R165). -/

namespace Sys2Proof.Machine

/-- Settles O6, field by field; the registers and slots are constant vectors and memory lists no byte. -/
theorem resetValues : Obligations.ResetValues := by
  unfold Obligations.ResetValues
  exact ⟨fun x => Vector.getElem_replicate x.isLt, rfl, fun k => Vector.getElem_replicate k.isLt, rfl, Memory.read_nil,
    rfl, rfl⟩

/-- Settles O7: the fetch at 0x000 reads two reset bytes, which are the word of HALT. -/
theorem unloadedMachineHaltsAtOnce : Obligations.UnloadedMachineHaltsAtOnce := by
  unfold Obligations.UnloadedMachineHaltsAtOnce
  have hfetch : State.reset.Fetches 0x0000#16 := ⟨rfl, rfl⟩
  have hdecode : decode 0x0000#16 = .ok .halt := rfl
  rw [step_of_fetches hfetch hdecode]
  rfl

theorem RunState.code_injective : Function.Injective RunState.code := by
  intro a b
  cases a <;> cases b <;> decide

theorem FaultKind.code_injective : Function.Injective FaultKind.code := by
  intro a b
  cases a <;> cases b <;> decide

/-- Five bits are enough for every value of `sp` (decision D2). -/
theorem sp_port_injective : Function.Injective fun sp : Fin 17 => BitVec.ofNat 5 sp.val := by
  intro a b h
  have h : a.val % 32 = b.val % 32 := by simpa only [BitVec.toNat_ofNat] using congrArg BitVec.toNat h
  omega

/-- Settles O47: the codes and the 5-bit `sp` lose nothing, and every other port is the field itself. -/
theorem portsShowTheState : Obligations.PortsShowTheState := by
  unfold Obligations.PortsShowTheState
  intro s t hout hmem
  have hrun : s.runState = t.runState := RunState.code_injective (congrArg Outputs.runState hout)
  have hkind : s.fault.kind = t.fault.kind := FaultKind.code_injective (congrArg Outputs.faultKind hout)
  have hinfo : s.fault.info = t.fault.info := congrArg Outputs.faultInfo hout
  have hpc : s.pc = t.pc := congrArg Outputs.dbgPc hout
  have hsp : s.sp = t.sp := sp_port_injective (congrArg Outputs.dbgSp hout)
  have hregs : s.regs = t.regs := congrArg Outputs.dbgReg hout
  have hstack : s.stack = t.stack := congrArg Outputs.dbgStack hout
  obtain ⟨regs, pc, stack, sp, mem, runState, ⟨kind, info⟩⟩ := s
  cases hrun; cases hkind; cases hinfo; cases hpc; cases hsp; cases hregs; cases hstack; cases hmem
  rfl

end Sys2Proof.Machine
end

section
/-! PROOFS. Memory and the fetch port (rules R31 to R35, R38): where a fetch succeeds, the two bytes a step reads, and that it
reads no other byte and writes none. -/

namespace Sys2Proof.Machine

variable {s s' t : State}

/-! ## The fetch and the step at each `pc` -/

/-- A fetch whose second byte exists (rule R32). -/
theorem State.fetch_of_le (hpc : s.pc.toNat ≤ 0xFFE) :
    s.fetch = some (wordOfBytes (s.mem.read s.pc.toNat) (s.mem.read (s.pc.toNat + 1))) :=
  if_pos (by simp only [Config.memSize]; omega)

/-- A fetch whose second byte does not exist (rule R34). -/
theorem State.fetch_of_ge (hpc : 0xFFF ≤ s.pc.toNat) : s.fetch = none :=
  if_neg (by simp only [Config.memSize]; omega)

/-- Settles O10: the fetch succeeds with the two bytes as its word, and the step of a decoded word is `step_of_decoded`. -/
theorem stepRunsDecodedInstruction : Obligations.StepRunsDecodedInstruction := by
  unfold Obligations.StepRunsDecodedInstruction
  intro s i hrun hpc hdecode
  exact step_of_decoded hrun (State.fetch_of_le hpc) hdecode

/-- Settles O11: the fetch is refused, and the step of a refused fetch is `step_of_refused`. -/
theorem outOfBoundsFetchFaults : Obligations.OutOfBoundsFetchFaults := by
  unfold Obligations.OutOfBoundsFetchFaults
  intro s hrun hpc
  exact step_of_refused hrun (State.fetch_of_ge hpc)

/-! ## No step writes memory -/

theorem step_mem (h : step s = .next t) : t.mem = s.mem := by
  cases stepEffect_of_step h with
  | ended | refused | unimplemented => rfl
  | runs iw i hf hd he => exact he.mem_eq

/-- Settles O17: reading as the first state's memory does is kept by every step, so by every run. -/
theorem memoryConstantDuringRun : Obligations.MemoryConstantDuringRun := by
  unfold Obligations.MemoryConstantDuringRun
  intro n s t h
  have hkeep : ∀ u v, SameMemory s u → step u = .next v → SameMemory s v := fun u v hu huv a =>
    (congrArg (Memory.read · a) (step_mem huv)).trans (hu a)
  exact runFor_keeps hkeep (fun _ => rfl) h

/-! ## The addresses on the memory port -/

/-- The first port address of a successful fetch, `pc[11:0]`, is all of `pc` (rules R34, R42). -/
theorem State.portAddress_toNat (hpc : s.pc.toNat ≤ 0xFFE) : (s.pc.extractLsb' 0 12).toNat = s.pc.toNat := by
  simp only [BitVec.extractLsb'_toNat, Nat.shiftRight_zero]
  omega

/-- The second port address of a successful fetch does not wrap (rules R34, R42). -/
theorem State.portAddress_succ_toNat (hpc : s.pc.toNat ≤ 0xFFE) :
    (s.pc.extractLsb' 0 12 + 1#12).toNat = s.pc.toNat + 1 := by
  rw [BitVec.toNat_add, State.portAddress_toNat hpc]
  show (s.pc.toNat + 1) % 4096 = _
  omega

theorem State.portAddresses_of_le (hrun : s.runState = .fetching) (hpc : s.pc.toNat ≤ 0xFFE) :
    s.portAddresses = [s.pc.extractLsb' 0 12, s.pc.extractLsb' 0 12 + 1#12] :=
  if_pos ⟨hrun, by simp only [Config.memSize]; omega⟩

theorem State.portAddresses_of_ended (hrun : s.runState ≠ .fetching) : s.portAddresses = [] :=
  if_neg fun h => hrun h.1

theorem State.portAddresses_of_ge (hpc : 0xFFF ≤ s.pc.toNat) : s.portAddresses = [] :=
  if_neg fun h => by have := h.2; simp only [Config.memSize] at this; omega

/-- The fetched word is the two bytes the port gives, high byte first (rules R32, R42). -/
theorem State.fetches_port (hrun : s.runState = .fetching) (hpc : s.pc.toNat ≤ 0xFFE) :
    s.Fetches (s.portRead (s.pc.extractLsb' 0 12) ++ s.portRead (s.pc.extractLsb' 0 12 + 1#12)) := by
  unfold State.portRead
  rw [State.portAddress_toNat hpc, State.portAddress_succ_toNat hpc]
  exact ⟨hrun, State.fetch_of_le hpc⟩

/-! ## No other byte matters -/

/-- States alike in registers, memory and all else are equal. -/
theorem SameControl.eq (hc : SameControl s s') (hregs : s'.regs = s.regs) (hmem : s'.mem = s.mem) : s' = s := by
  obtain ⟨hpc, hsp, hstack, hrun, hfault⟩ := hc
  cases s; cases s'
  cases hregs; cases hpc; cases hstack; cases hsp; cases hmem; cases hrun; cases hfault
  rfl

/-- An instruction does with any other memory what it does with its own, and leaves that memory as it is: by the comparison
`actsAlike` it writes the same registers, and it leaves the others alone (rules R13, R79). -/
theorem exec_with_mem {i : Instr} (h : exec i s = .next t) (m : Memory) :
    exec i { s with mem := m } = .next { t with mem := m } := by
  obtain ⟨u, u', hu, hu', hwrites, hc⟩ :=
    actsAlike (s := s) (s' := { s with mem := m }) i (fun _ _ => rfl) ⟨rfl, rfl, rfl, rfl, rfl⟩
  cases hu.symm.trans h
  have he := execEffect_of_exec hu
  have he' := execEffect_of_exec hu'
  have hreg : ∀ j, u'.reg j = t.reg j := fun j => by
    by_cases hj : j ∈ writesOf i
    · exact hwrites j hj
    · exact (he'.sameRegsExcept j hj).trans (he.sameRegsExcept j hj).symm
  have hc' : SameControl { t with mem := m } u' := ⟨hc.pc, hc.sp, hc.stack, hc.runState, hc.fault⟩
  rw [hu', hc'.eq (State.regs_eq_of_reg t hreg) he'.mem_eq]

/-- A memory that agrees on the port's bytes gives the same fetch (rule R35). -/
theorem State.fetch_with_mem {m : Memory} (hrun : s.runState = .fetching)
    (hm : ∀ a ∈ s.portAddresses, m.read a.toNat = s.mem.read a.toNat) : State.fetch { s with mem := m } = s.fetch := by
  by_cases hpc : s.pc.toNat ≤ 0xFFE
  · rw [State.portAddresses_of_le hrun hpc, List.forall_mem_cons, List.forall_mem_singleton, State.portAddress_toNat hpc,
      State.portAddress_succ_toNat hpc] at hm
    obtain ⟨hhigh, hlow⟩ := hm
    rw [State.fetch_of_le hpc, State.fetch_of_le (s := { s with mem := m }) hpc, hhigh, hlow]
  · have hpc : 0xFFF ≤ s.pc.toNat := by omega
    rw [State.fetch_of_ge hpc, State.fetch_of_ge (s := { s with mem := m }) hpc]

/-- With a memory that agrees on the port's bytes the step is the same but for that memory (rule R35). -/
theorem step_with_mem {m : Memory} (hm : ∀ a ∈ s.portAddresses, m.read a.toNat = s.mem.read a.toNat)
    (h : step s = .next t) : step { s with mem := m } = .next { t with mem := m } := by
  by_cases hrun : s.runState = .fetching
  · have hfetch := State.fetch_with_mem hrun hm
    rcases hw : s.fetch with _ | iw
    · cases (step_of_refused hrun hw).symm.trans h
      exact step_of_refused hrun (hfetch.trans hw)
    · cases hd : decode iw with
      | error e =>
        cases (step_of_unimplemented hrun hw hd).symm.trans h
        exact step_of_unimplemented hrun (hfetch.trans hw) hd
      | ok i =>
        rw [step_of_decoded hrun hw hd] at h
        exact (step_of_decoded (s := { s with mem := m }) hrun (hfetch.trans hw) hd).trans (exec_with_mem h m)
  · cases (step_of_ended hrun).symm.trans h
    exact step_of_ended hrun

/-- Settles O16: the port's addresses by the cases of the run state and of `pc`, and the rest is `step_with_mem`. -/
theorem stepReadsExactlyThePortBytes : Obligations.StepReadsExactlyThePortBytes := by
  unfold Obligations.StepReadsExactlyThePortBytes
  refine fun s => ⟨?_, fun m t hm h => step_with_mem hm h⟩
  by_cases hrun : s.runState = .fetching
  · by_cases hpc : s.pc.toNat ≤ 0xFFE
    · exact .inl ⟨s.pc.extractLsb' 0 12, State.portAddresses_of_le hrun hpc, State.portAddress_toNat hpc,
        State.portAddress_succ_toNat hpc, State.fetches_port hrun hpc⟩
    · exact .inr ⟨State.portAddresses_of_ge (by omega), fun iw hf => hpc hf.pc_le⟩
  · exact .inr ⟨State.portAddresses_of_ended hrun, fun iw hf => hrun hf.1⟩

end Sys2Proof.Machine
end

section
/-! PROOFS. The decoder and the encoder against each other and against the opcode table (rules R50 to R57, R62). -/

namespace Sys2Proof

/-! ## The encoder's word has the fields it was made from (rules R51, R52) -/

section
variable (c minor : BitVec 4) (addr : Addr) (x y : RegIdx) (kk : Byte)

@[simp] theorem opClass_encodeA : opClass (encodeA c addr) = c := by
  apply BitVec.eq_of_toNat_eq
  rw [opClass_toNat, encodeA_toNat]
  omega

@[simp] theorem fieldAddr_encodeA : fieldAddr (encodeA c addr) = addr := by
  apply BitVec.eq_of_toNat_eq
  rw [fieldAddr_toNat, encodeA_toNat]
  omega

@[simp] theorem opClass_encodeXK : opClass (encodeXK c x kk) = c := by
  apply BitVec.eq_of_toNat_eq
  rw [opClass_toNat, encodeXK_toNat]
  omega

@[simp] theorem fieldX_encodeXK : fieldX (encodeXK c x kk) = x := by
  apply Fin.ext
  rw [fieldX_val, encodeXK_toNat]
  omega

@[simp] theorem fieldKk_encodeXK : fieldKk (encodeXK c x kk) = kk := by
  apply BitVec.eq_of_toNat_eq
  rw [fieldKk_toNat, encodeXK_toNat]
  omega

@[simp] theorem opClass_encodeXY : opClass (encodeXY c x y minor) = c := by
  apply BitVec.eq_of_toNat_eq
  rw [opClass_toNat, encodeXY_toNat]
  omega

@[simp] theorem fieldX_encodeXY : fieldX (encodeXY c x y minor) = x := by
  apply Fin.ext
  rw [fieldX_val, encodeXY_toNat]
  omega

@[simp] theorem fieldY_encodeXY : fieldY (encodeXY c x y minor) = y := by
  apply Fin.ext
  rw [fieldY_val, encodeXY_toNat]
  omega

@[simp] theorem opMinor_encodeXY : opMinor (encodeXY c x y minor) = minor := by
  apply BitVec.eq_of_toNat_eq
  rw [opMinor_toNat, encodeXY_toNat]
  omega

end

/-! ## Decoding an encoded instruction -/

/-- The decoder's class picks the arm, and the arm's fields are the operands. -/
theorem decode_encode (i : Instr) : decode (encode i) = .ok i := by
  cases i with
  | halt => rfl
  | ret => rfl
  | jmp addr | call addr => simp [encode, decode]
  | skipEqImm x kk | skipNeImm x kk | loadImm x kk | addImm x kk => simp [encode, decode]
  | skipEqReg x y => simp [encode, decode, decodeClass5]
  | loadReg x y | orReg x y | andReg x y | xorReg x y | addReg x y => simp [encode, decode, decodeClass8]

/-- A word is its two bytes put together, the high one first (rule R50). -/
@[simp] theorem wordOfBytes_highByte_lowByte (iw : Word) : wordOfBytes (highByte iw) (lowByte iw) = iw := by
  apply BitVec.eq_of_toNat_eq
  simp only [wordOfBytes_toNat, highByte, lowByte, BitVec.extractLsb'_toNat, Nat.shiftRight_eq_div_pow]
  omega

/-- Settles O2: the two bytes are the instruction's word, whose fields are the operands (`decode_encode`). -/
theorem decodeInvertsEncode : Obligations.DecodeInvertsEncode := by
  unfold Obligations.DecodeInvertsEncode
  intro i rest
  simp only [encodeBytes, List.cons_append, List.nil_append, decodeBytes, wordOfBytes_highByte_lowByte, decode_encode]
  rfl

/-- Settles O3, the case split of `encode_of_decode`. -/
theorem encodeInvertsDecode : Obligations.EncodeInvertsDecode := by
  unfold Obligations.EncodeInvertsDecode
  exact fun iw i h => encode_of_decode h

/-- Settles O1 by evaluating the decoder on the listed bytes. -/
theorem listedBytesDecode : Obligations.ListedBytesDecode := by
  unfold Obligations.ListedBytesDecode
  exact ⟨rfl, rfl, rfl, rfl, rfl, rfl⟩

/-! ## The unimplemented words (rules R55 to R57) -/

/-- The ranges of rule R57, on the word's number. -/
def InUnimplementedRange (n : Nat) : Prop :=
  (0x0001 ≤ n ∧ n ≤ 0x00ED) ∨ (0x00EF ≤ n ∧ n ≤ 0x0FFF) ∨ (n / 0x1000 = 5 ∧ n % 0x10 ≠ 0) ∨
  (n / 0x1000 = 8 ∧ 5 ≤ n % 0x10) ∨ 0x9000 ≤ n

/-- A decoder that answers an instruction, or, exactly where `bad` holds, the default arm with the word. -/
def DecodesUnless (bad : Prop) (iw : Word) (r : Except DecodeError Instr) : Prop :=
  (¬ bad ∧ ∃ i, r = .ok i) ∨ (bad ∧ r = .error (.unimplemented iw))

/-- The condition may be given in other words. -/
theorem DecodesUnless.congr {bad bad' : Prop} {iw : Word} {r : Except DecodeError Instr} (h : DecodesUnless bad iw r)
    (hb : bad ↔ bad') : DecodesUnless bad' iw r := propext hb ▸ h

theorem decodeClass0_cases (iw : Word) :
    DecodesUnless (iw.toNat ≠ 0 ∧ iw.toNat ≠ 0x00EE) iw (decodeClass0 iw) := by
  unfold decodeClass0
  split
  next h => exact .inl ⟨by simp [h], _, rfl⟩
  next h0 =>
    split
    next h => exact .inl ⟨by simp [h], _, rfl⟩
    next hEE => exact .inr ⟨⟨fun h => h0 (BitVec.eq_of_toNat_eq h), fun h => hEE (BitVec.eq_of_toNat_eq h)⟩, rfl⟩

theorem decodeClass5_cases (iw : Word) : DecodesUnless (iw.toNat % 0x10 ≠ 0) iw (decodeClass5 iw) := by
  unfold decodeClass5
  rw [opMinor_toNat]
  split
  next h => exact .inl ⟨by omega, _, rfl⟩
  next h => exact .inr ⟨h, rfl⟩

theorem decodeClass8_cases (iw : Word) : DecodesUnless (5 ≤ iw.toNat % 0x10) iw (decodeClass8 iw) := by
  unfold decodeClass8
  rw [opMinor_toNat]
  split
  case h_6 =>
    simp only [imp_false] at *
    exact .inr ⟨by omega, rfl⟩
  all_goals exact .inl ⟨by omega, _, rfl⟩

/-- The default arm is taken in the ranges of rule R57 and nowhere else: class by class. -/
theorem decode_cases (iw : Word) : DecodesUnless (InUnimplementedRange iw.toNat) iw (decode iw) := by
  unfold decode InUnimplementedRange
  rw [opClass_toNat]
  split
  next hc => exact (decodeClass0_cases iw).congr (by omega)
  case h_6 hc => exact (decodeClass5_cases iw).congr (by omega)
  case h_9 hc => exact (decodeClass8_cases iw).congr (by omega)
  case h_10 =>
    simp only [imp_false] at *
    exact .inr ⟨by omega, rfl⟩
  all_goals exact .inl ⟨by omega, _, rfl⟩

/-- Settles O5: the two cases of `decode_cases` exclude each other. -/
theorem unimplementedSpaceExactly : Obligations.UnimplementedSpaceExactly := by
  unfold Obligations.UnimplementedSpaceExactly
  intro iw
  change _ ↔ InUnimplementedRange iw.toNat
  rcases decode_cases iw with ⟨hgood, i, hi⟩ | ⟨hbad, he⟩
  · simp only [hi, hgood, reduceCtorEq]
  · simp only [he, hbad]

/-! ## The opcode table (rule R54) -/

/-- Every instruction's word is in the row with its name: the table of `Laws.TableRow`, as one statement. -/
theorem tableRow_of_instr (i : Instr) : Laws.TableRow.Statement i := by
  cases i with
  | halt => exact Laws.TableRow.halt
  | ret => exact Laws.TableRow.ret
  | jmp addr => exact Laws.TableRow.jmp addr
  | call addr => exact Laws.TableRow.call addr
  | skipEqImm x kk => exact Laws.TableRow.skipEqImm x kk
  | skipNeImm x kk => exact Laws.TableRow.skipNeImm x kk
  | skipEqReg x y => exact Laws.TableRow.skipEqReg x y
  | loadImm x kk => exact Laws.TableRow.loadImm x kk
  | addImm x kk => exact Laws.TableRow.addImm x kk
  | loadReg x y => exact Laws.TableRow.loadReg x y
  | orReg x y => exact Laws.TableRow.orReg x y
  | andReg x y => exact Laws.TableRow.andReg x y
  | xorReg x y => exact Laws.TableRow.xorReg x y
  | addReg x y => exact Laws.TableRow.addReg x y

/-- A decoded word is in the row with its instruction's name. -/
theorem exists_row_of_decode {iw : Word} {i : Instr} (h : decode iw = .ok i) :
    ∃ row ∈ opcodeTable, row.mnemonic = i.mnemonic ∧ iw &&& row.mask = row.pattern := by
  obtain ⟨row, hrow, hname, hsel⟩ := tableRow_of_instr i
  rw [encode_of_decode h] at hsel
  exact ⟨row, hrow, hname, beq_iff_eq.mp hsel⟩

/-- The names tell the rows apart. -/
theorem row_eq_of_mnemonic : ∀ row ∈ opcodeTable, ∀ row' ∈ opcodeTable, row.mnemonic = row'.mnemonic → row = row' := by
  decide

/-- No two rows agree under both their masks, so no word is in both. -/
theorem row_eq_of_patterns_agree : ∀ row ∈ opcodeTable, ∀ row' ∈ opcodeTable,
    row.pattern &&& row'.mask = row'.pattern &&& row.mask → row = row' := by
  decide

theorem row_eq_of_selects {iw : Word} {row row' : OpcodeRow} (hrow : row ∈ opcodeTable) (hrow' : row' ∈ opcodeTable)
    (h : iw &&& row.mask = row.pattern) (h' : iw &&& row'.mask = row'.pattern) : row = row' := by
  refine row_eq_of_patterns_agree row hrow row' hrow' ?_
  rw [← h, ← h', BitVec.and_assoc, BitVec.and_assoc, BitVec.and_comm row.mask]

/-- A word is in a row exactly when it decodes to an instruction of the row's name. -/
theorem selects_iff_decode {iw : Word} {row : OpcodeRow} (hrow : row ∈ opcodeTable) :
    iw &&& row.mask = row.pattern ↔ ∃ i, decode iw = .ok i ∧ i.mnemonic = row.mnemonic := by
  constructor
  · intro hsel
    obtain ⟨i, hi⟩ := decode_ok_of_selects hrow (beq_iff_eq.mpr hsel)
    obtain ⟨row', hrow', hname, hsel'⟩ := exists_row_of_decode hi
    exact ⟨i, hi, row_eq_of_selects hrow hrow' hsel hsel' ▸ hname.symm⟩
  · rintro ⟨i, hi, hname⟩
    obtain ⟨row', hrow', hname', hsel'⟩ := exists_row_of_decode hi
    exact row_eq_of_mnemonic row' hrow' row hrow (hname'.trans hname) ▸ hsel'

/-- A word in no row takes the default arm: a decoded one would be in its instruction's row. -/
theorem decode_of_no_row {iw : Word} (h : ∀ row ∈ opcodeTable, iw &&& row.mask ≠ row.pattern) :
    decode iw = .error (.unimplemented iw) := by
  rcases decode_cases iw with ⟨-, i, hi⟩ | ⟨-, he⟩
  · obtain ⟨row, hrow, -, hsel⟩ := exists_row_of_decode hi
    exact absurd hsel (h row hrow)
  · exact he

/-- Settles O4: `selects_iff_decode` for a row, `row_eq_of_selects` for two rows, `decode_of_no_row` for the rest. -/
theorem opcodeTableIsTheDecode : Obligations.OpcodeTableIsTheDecode := by
  unfold Obligations.OpcodeTableIsTheDecode
  exact ⟨rfl, fun _ _ => selects_iff_decode, fun _ _ _ => row_eq_of_selects, fun _ => decode_of_no_row⟩

/-- Settles O12: such a word takes the default arm (`decode_of_no_row`), whose step is `step_of_unimplemented`. -/
theorem unimplementedWordFaults : Obligations.UnimplementedWordFaults := by
  unfold Obligations.UnimplementedWordFaults
  rintro s iw ⟨hrun, hfetch⟩ hno
  exact Machine.step_of_unimplemented hrun hfetch (decode_of_no_row hno)

end Sys2Proof
end

section
/-! PROOFS. The run loop and its routines: what a routine does to the run state and the fault record (rule R79), when a step
halts or faults (rules R77, R139), and how a run is made of steps (rules R71, R145). -/

namespace Sys2Proof.Machine

variable {s t : State} {i : Instr}

/-! ## Every instruction and every step answers a next state -/

theorem exists_next_of_exec (i : Instr) (s : State) : ∃ t, exec i s = .next t := by
  obtain ⟨t, -, h, -⟩ := actsAlike (s := s) (s' := s) i (fun _ _ => rfl) ⟨rfl, rfl, rfl, rfl, rfl⟩
  exact ⟨t, h⟩

theorem exists_next_of_step (s : State) : ∃ t, step s = .next t := by
  by_cases hrun : s.runState = .fetching
  · rcases hw : s.fetch with _ | iw
    · exact ⟨_, step_of_refused hrun hw⟩
    · cases hd : decode iw with
      | error e => exact ⟨_, step_of_unimplemented hrun hw hd⟩
      | ok i => exact step_of_decoded hrun hw hd ▸ exists_next_of_exec i s.advancePc
  · exact ⟨_, step_of_ended hrun⟩

/-! ## A routine reads no memory, run state or fault record (rule R79) -/

/-- The state with the three fields that rule R79 keeps from the routines replaced. -/
def State.withLoop (s : State) (m : Memory) (r : RunState) (f : FaultRecord) : State :=
  { s with mem := m, runState := r, fault := f }

/-- How a routine ends, by the instruction and `sp`: HALT halts, CALL on a full stack and RET on an empty one raise, and every
other case passes the run state and the record through (rules R79, R91, R93). -/
inductive RoutineCase (s : State) : Instr → Prop
  | halts : RoutineCase s .halt
  | overflows (addr : Addr) (hfull : s.sp.val = 16) : RoutineCase s (.call addr)
  | underflows (hempty : s.sp.val = 0) : RoutineCase s .ret
  | passes {i : Instr} (hhalt : i ≠ .halt) (hcall : ∀ addr, i = .call addr → s.sp.val < 16)
      (hret : i = .ret → 0 < s.sp.val) : RoutineCase s i

theorem routineCase (i : Instr) (s : State) : RoutineCase s i := by
  by_cases hhalt : i = .halt
  · exact hhalt ▸ .halts
  by_cases hover : ∃ addr, i = .call addr ∧ ¬ s.sp.val < 16
  · obtain ⟨addr, rfl, hsp⟩ := hover
    exact .overflows addr (State.full_of_not_lt hsp)
  by_cases hunder : i = .ret ∧ s.sp.val = 0
  · exact hunder.1 ▸ .underflows hunder.2
  · exact .passes hhalt (fun addr h => by_contra fun hsp => hover ⟨addr, h, hsp⟩)
      fun h => Nat.pos_of_ne_zero fun hsp => hunder ⟨h, hsp⟩

/-- A skip passes memory, run state and record through. -/
theorem State.skipIf_withLoop (s : State) (taken : Bool) (m : Memory) (r : RunState) (f : FaultRecord) :
    (s.withLoop m r f).skipIf taken = (s.skipIf taken).withLoop m r f := by
  rw [State.skipIf_eq, State.skipIf_eq]
  rfl

/-- Where a routine neither halts nor raises, what it leaves is a state that memory, run state and record have no part in,
with those three passed through (rule R79). -/
theorem exec_withLoop (hhalt : i ≠ .halt) (hcall : ∀ addr, i = .call addr → s.sp.val < 16) (hret : i = .ret → 0 < s.sp.val) :
    ∃ t : State, ∀ m r f, exec i (s.withLoop m r f) = .next (t.withLoop m r f) := by
  cases i with
  | halt => exact absurd rfl hhalt
  | ret =>
    obtain ⟨k, hk⟩ := State.exists_top_of_pos (hret rfl)
    exact ⟨s.afterRet k, fun m r f => exec_ret_of_pos (s := s.withLoop m r f) hk⟩
  | jmp addr => exact ⟨s.setPc (targetOf addr), fun _ _ _ => rfl⟩
  | call addr =>
    have hsp := hcall addr rfl
    exact ⟨s.afterCall addr hsp, fun m r f => exec_call_of_lt (s := s.withLoop m r f) addr hsp⟩
  | skipEqImm x kk => exact ⟨_, fun m r f => congrArg _ (s.skipIf_withLoop (s.regEquals x (.imm kk)) m r f)⟩
  | skipNeImm x kk => exact ⟨_, fun m r f => congrArg _ (s.skipIf_withLoop (!s.regEquals x (.imm kk)) m r f)⟩
  | skipEqReg x y => exact ⟨_, fun m r f => congrArg _ (s.skipIf_withLoop (s.regEquals x (.reg y)) m r f)⟩
  | loadImm x kk => exact ⟨s.writeReg x kk, fun _ _ _ => rfl⟩
  | addImm x kk => exact ⟨s.applyToReg sum8 x (.imm kk), fun _ _ _ => rfl⟩
  | loadReg x y => exact ⟨s.writeReg x (s.reg y), fun _ _ _ => rfl⟩
  | orReg x y => exact ⟨s.applyToReg (· ||| ·) x (.reg y), fun _ _ _ => rfl⟩
  | andReg x y => exact ⟨s.applyToReg (· &&& ·) x (.reg y), fun _ _ _ => rfl⟩
  | xorReg x y => exact ⟨s.applyToReg (· ^^^ ·) x (.reg y), fun _ _ _ => rfl⟩
  | addReg x y =>
    exact ⟨(s.applyToReg sum8 x (.reg y)).writeFlag (carryFlag (s.reg x) (s.reg y)), fun _ _ _ => rfl⟩

/-- Settles O15, by `routineCase`: the two ends that raise by the equations of CALL and RET, the last by `exec_withLoop`, once
with the state's own memory, run state and record and once with the others. -/
theorem routinesTouchOnlyTheirState : Obligations.RoutinesTouchOnlyTheirState := by
  unfold Obligations.RoutinesTouchOnlyTheirState
  intro i s m r f
  cases routineCase i s with
  | halts => exact ⟨_, _, rfl, rfl, by simp⟩
  | overflows addr hfull =>
    refine ⟨_, _, exec_call_of_full addr hfull, exec_call_of_full (s := s.withLoop m r f) addr hfull, ?_⟩
    simp [State.withLoop, hfull]
  | underflows hempty =>
    refine ⟨_, _, exec_ret_of_empty hempty, exec_ret_of_empty (s := s.withLoop m r f) hempty, ?_⟩
    simp [State.withLoop, hempty]
  | passes hhalt hcall hret =>
    obtain ⟨t, ht⟩ := exec_withLoop hhalt hcall hret
    refine ⟨_, _, ht s.mem s.runState s.fault, ht m r f, rfl, rfl, rfl, rfl, rfl, rfl, fun h => absurd h hhalt,
      fun addr h hfull => ?_, fun h hempty => ?_, fun _ _ _ => ⟨rfl, rfl, rfl, rfl⟩⟩
    · have := hcall addr h; omega
    · have := hret h; omega

/-! ## When a step halts or faults -/

/-- The run state an instruction leaves, run from FETCHING: HALTED by HALT, FAULTED by CALL on a full stack or RET on an empty
one (rules R90, R91, R93). -/
theorem exec_runState (hrun : s.runState = .fetching) (h : exec i s = .next t) :
    (t.runState = .halted ↔ i = .halt) ∧
    (t.runState = .faulted ↔ (∃ addr, i = .call addr ∧ s.sp.val = 16) ∨ (i = .ret ∧ s.sp.val = 0)) := by
  cases routineCase i s with
  | halts => cases h; simp
  | overflows addr hfull => cases (exec_call_of_full addr hfull).symm.trans h; simp [hfull]
  | underflows hempty => cases (exec_ret_of_empty hempty).symm.trans h; simp [hempty]
  | passes hhalt hcall hret =>
    obtain ⟨u, hu⟩ := exec_withLoop hhalt hcall hret
    cases (hu s.mem s.runState s.fault).symm.trans h
    have ht : (u.withLoop s.mem s.runState s.fault).runState = .fetching := hrun
    rw [ht]
    refine ⟨iff_of_false (by decide) hhalt, iff_of_false (by decide) ?_⟩
    rintro (⟨addr, hi, hfull⟩ | ⟨hi, hempty⟩)
    · have := hcall addr hi; omega
    · have := hret hi; omega

/-- Two decoded words are equal exactly when their instructions are (rules R54, R62). -/
theorem word_eq_iff {iw iw' : Word} {i' : Instr} (h : decode iw = .ok i) (h' : decode iw' = .ok i') : iw = iw' ↔ i = i' := by
  constructor
  · rintro rfl
    exact Except.ok.inj (h.symm.trans h')
  · rintro rfl
    exact (encode_of_decode h).symm.trans (encode_of_decode h')

theorem wellFormedWord_of_decode {iw : Word} (h : decode iw = .ok i) : wellFormedWord iw = true := by
  obtain ⟨row, hrow, -, hsel⟩ := exists_row_of_decode h
  exact List.any_eq_true.mpr ⟨row, hrow, beq_iff_eq.mpr hsel⟩

/-- The words of HALT, RET and CALL, by what they decode to (rule R54). -/
theorem word_iff_of_decode {iw : Word} (h : decode iw = .ok i) :
    (iw = 0x0000#16 ↔ i = .halt) ∧ (iw = 0x00EE#16 ↔ i = .ret) ∧ (iw.toNat / 0x1000 = 2 ↔ ∃ addr, i = .call addr) := by
  refine ⟨word_eq_iff h rfl, word_eq_iff h decode_ret, fun hw => ?_, fun ⟨addr, hi⟩ => ?_⟩
  · cases h.symm.trans (decode_of_class2 hw)
    exact ⟨_, rfl⟩
  · subst hi
    exact encode_of_decode h ▸ encode_call_div addr

/-- A step that takes a decoded word, in terms of the word (rules R77, R78). -/
theorem step_runState_of_decoded {iw : Word} (hf : s.Fetches iw) (hd : decode iw = .ok i) (h : step s = .next t) :
    (t.runState = .halted ↔ iw = 0x0000#16) ∧
    (t.runState = .faulted ↔ (iw.toNat / 0x1000 = 2 ∧ s.sp.val = 16) ∨ (iw = 0x00EE#16 ∧ s.sp.val = 0)) := by
  obtain ⟨hhalt, hret, hcall⟩ := word_iff_of_decode hd
  rw [hhalt, hret, hcall, ← exists_and_right]
  exact exec_runState (s := s.advancePc) hf.1 ((step_of_fetches hf hd).symm.trans h)

/-- Settles O13, by the cases of the fetch and of the decoder; a decoded word is `step_runState_of_decoded`. -/
theorem runLoopTransitions : Obligations.RunLoopTransitions := by
  unfold Obligations.RunLoopTransitions
  intro s
  obtain ⟨t, h⟩ := exists_next_of_step s
  refine ⟨t, h, fun hrun => ?_, fun hended => ?_⟩
  · rcases hw : s.fetch with _ | iw
    · cases (step_of_refused hrun hw).symm.trans h
      simp
    · cases hd : decode iw with
      | error e =>
        cases (step_of_unimplemented hrun hw hd).symm.trans h
        have hbad := wellFormedWord_of_decode_error hd
        have hne : iw ≠ 0x0000#16 := fun hz => by subst hz; cases hd
        simp [hbad, hne]
      | ok i =>
        obtain ⟨hhalted, hfaulted⟩ := step_runState_of_decoded ⟨hrun, hw⟩ hd h
        simp [hhalted, hfaulted, wellFormedWord_of_decode hd]
  · cases (step_of_ended hended).symm.trans h
    rfl

/-- An instruction that faults from FETCHING has raised, and done nothing else. -/
theorem ExecEffect.eq_raise_of_faulted (he : ExecEffect s i t) (hrun : s.runState = .fetching)
    (ht : t.runState = .faulted) : ∃ kind info, kind ≠ .outOfBoundsFetch ∧ t = s.raise kind info := by
  have hpassed : ¬ s.runState = .faulted := by rw [hrun]; decide
  cases he with
  | halts => cases ht
  | underflows => exact ⟨.stackUnderflow, _, by decide, rfl⟩
  | overflows => exact ⟨.stackOverflow, _, by decide, rfl⟩
  | returns | calls | jumps | writes => exact absurd ht hpassed
  | skips => rw [State.skipIf_eq] at ht; exact absurd ht hpassed

/-- A step that faults from FETCHING is a raise of OutOfBoundsFetch in the state as it was, or of another kind with `pc`
advanced (rules R78, R139; decisions D5, D6). -/
theorem step_eq_raise_of_faulted (hrun : s.runState = .fetching) (h : step s = .next t) (ht : t.runState = .faulted) :
    t = s.raise .outOfBoundsFetch s.pc ∨ ∃ kind info, kind ≠ .outOfBoundsFetch ∧ t = s.advancePc.raise kind info := by
  cases stepEffect_of_step h with
  | ended hended => exact absurd hrun hended
  | refused => exact .inl rfl
  | unimplemented iw => exact .inr ⟨.unimplementedOpcode, iw, by decide, rfl⟩
  | runs iw i hf hd he => exact .inr (he.eq_raise_of_faulted hf.1 ht)

/-- Settles O36: by `step_eq_raise_of_faulted` nothing but `pc`, the run state and the record can have changed. -/
theorem faultsArePrecise : Obligations.FaultsArePrecise := by
  unfold Obligations.FaultsArePrecise
  intro s t hrun h ht
  rcases step_eq_raise_of_faulted hrun h ht with rfl | ⟨kind, info, hkind, rfl⟩
  · exact ⟨fun _ _ => rfl, ⟨fun _ => rfl, rfl⟩, fun _ => rfl, rfl⟩
  · exact ⟨fun _ _ => rfl, ⟨fun _ => rfl, rfl⟩, fun _ => rfl, (if_neg hkind).symm⟩

/-! ## Runs -/

theorem runFor_of_ended (h : s.runState ≠ .fetching) (n : Nat) : runFor n s = .next s := by
  cases n with
  | zero => rfl
  | succ n =>
    unfold runFor
    split
    next hf => exact absurd hf h
    next => rfl

theorem State.ended.not_fetching (h : s.ended) : s.runState ≠ .fetching := by
  rcases h with h | h <;> rw [h] <;> decide

/-- A run is its first step and the run of what is left; once the run has ended both stand still (rules R71, R77). -/
theorem runFor_succ (h : step s = .next t) (n : Nat) : runFor (n + 1) s = runFor n t := by
  by_cases hrun : s.runState = .fetching
  · simp only [runFor, hrun, h]
  · cases (step_of_ended hrun).symm.trans h
    rw [runFor_of_ended hrun, runFor_of_ended hrun]

/-- Settles O14: an ended state is not FETCHING, and outside FETCHING the step, the run and the port do nothing. -/
theorem endedMachineHoldsItsState : Obligations.EndedMachineHoldsItsState := by
  unfold Obligations.EndedMachineHoldsItsState
  intro s hended
  have hrun := hended.not_fetching
  exact ⟨step_of_ended hrun, runFor_of_ended hrun, State.portAddresses_of_ended hrun⟩

/-- A Run of `n` steps and `n` Steps, by induction on `n`: both go on from the state the first step leaves (rule R145). -/
theorem runFor_and_steps : ∀ (n : Nat) (s : State) (closed : Bool), ∃ t closed', runFor n s = .next t ∧
    applyAll (List.replicate n .step) ⟨s, closed⟩ = .next ⟨t, closed'⟩
  | 0, s, closed => ⟨s, closed, rfl, rfl⟩
  | n + 1, s, closed => by
    obtain ⟨u, hu⟩ := exists_next_of_step s
    have hstep : HostOp.step.apply ⟨s, closed⟩ = .next ⟨u, true⟩ := congrArg Session.advanced hu
    rw [runFor_succ hu, List.replicate_succ, applyAll_cons_of_next hstep]
    exact runFor_and_steps n u true

/-- Settles O44, from `runFor_and_steps`; the Run's session is the machine of its steps. -/
theorem runEqualsSingleSteps : Obligations.RunEqualsSingleSteps := by
  unfold Obligations.RunEqualsSingleSteps
  rintro n ⟨s, closed⟩
  obtain ⟨t, closed', hrun, hsteps⟩ := runFor_and_steps n s closed
  exact ⟨⟨t, true⟩, ⟨t, closed'⟩, congrArg Session.advanced hrun, hsteps, rfl⟩

/-- A run that is given more budget goes on from where it was (rule R169). -/
theorem runFor_add : ∀ {n : Nat} {s t : State}, runFor n s = .next t → ∀ m, runFor (n + m) s = runFor m t
  | 0, s, t, h, m => by cases h; rw [Nat.zero_add]
  | n + 1, s, t, h, m => by
    obtain ⟨u, hu⟩ := exists_next_of_step s
    rw [runFor_succ hu] at h
    rw [Nat.add_right_comm, runFor_succ hu]
    exact runFor_add h m

/-- Settles O45: under the two budgets together each run has ended and stands still, so the two ends are one state. -/
theorem runResultIsUnique : Obligations.RunResultIsUnique := by
  unfold Obligations.RunResultIsUnique
  rintro s t u ⟨ht, n, hn⟩ ⟨hu, k, hk⟩
  have hnk : runFor (n + k) s = .next t := (runFor_add hn k).trans (runFor_of_ended ht.not_fetching k)
  have hkn : runFor (k + n) s = .next u := (runFor_add hk n).trans (runFor_of_ended hu.not_fetching n)
  rw [Nat.add_comm k n] at hkn
  cases hnk.symm.trans hkn
  rfl

end Sys2Proof.Machine
end

section
/-! PROOFS. The step against rule R80's listing: the listing's tests and fields are those of the decoder, and each of its arms
is the instruction's routine. -/

namespace Sys2Proof.Machine

variable {s : State} {iw : Word}

/-! ## The listing's fields (rules R51, R80) -/

theorem listingNibble_eight (iw : Word) : listingNibble iw 8 = fieldX iw :=
  Fin.ext (fieldX_val iw).symm

theorem listingNibble_four (iw : Word) : listingNibble iw 4 = fieldY iw :=
  Fin.ext (fieldY_val iw).symm

theorem ofNat_toNat_eq_fieldKk (iw : Word) : BitVec.ofNat 8 iw.toNat = fieldKk iw :=
  BitVec.eq_of_toNat_eq (by rw [fieldKk_toNat, BitVec.toNat_ofNat])

theorem and_addrMask (iw : Word) : iw &&& 0x0FFF#16 = targetOf (fieldAddr iw) := by
  apply BitVec.eq_of_toNat_eq
  rw [targetOf_toNat, fieldAddr_toNat, BitVec.toNat_and]
  exact Nat.and_two_pow_sub_one_eq_mod iw.toNat 12

/-! ## The listing's tests (rules R54, R80) -/

/-- The listing tests a word row by row; an instruction's word meets the test of the instruction's row and no other. -/
theorem encode_test_iff (i : Instr) {row : OpcodeRow} (hrow : row ∈ opcodeTable) :
    encode i &&& row.mask = row.pattern ↔ row.mnemonic = i.mnemonic := by
  rw [selects_iff_decode hrow, decode_encode]
  constructor
  · rintro ⟨_, hi, hname⟩
    cases hi
    exact hname.symm
  · exact fun hname => ⟨i, rfl, hname.symm⟩

/-- The tests for HALT and RET, on the whole word, as the rows have them. -/
theorem eq_iff_and_ones (iw w : Word) : iw = w ↔ iw &&& 0xFFFF#16 = w := by
  rw [show iw &&& 0xFFFF#16 = iw from BitVec.and_allOnes]

/-- A word that does not decode is in no row, so it fails every test of the listing, which then raises UnimplementedOpcode
(rules R57, R76). -/
theorem listingExecute_of_error {e : DecodeError} (h : decode iw = .error e) (s : State) :
    listingExecute iw s = s.raise .unimplementedOpcode iw := by
  have tests : ∀ row ∈ opcodeTable, ¬ iw &&& row.mask = row.pattern := fun row hrow hsel => by
    obtain ⟨i, hi, -⟩ := (selects_iff_decode hrow).mp hsel
    cases h.symm.trans hi
  simp only [opcodeTable, List.cons_append, List.nil_append, List.forall_mem_cons, ← eq_iff_and_ones] at tests
  simp only [listingExecute, tests, if_false]
  rfl

/-! ## The listing's arms -/

theorem exec_ret_listing (s : State) : exec .ret s = .next
    (if s.sp = 0 then s.raise .stackUnderflow 0x00EE#16
      else { s with sp := Fin.ofNat 17 (s.sp.val - 1), pc := s.stack[s.sp.val - 1]?.getD 0#16 }) := by
  split
  next h => exact exec_ret_of_empty (Fin.ext_iff.mp h)
  next h =>
    obtain ⟨k, hk⟩ := State.exists_top_of_pos (Fin.pos_iff_ne_zero.mpr h)
    have hsp : Fin.ofNat 17 (s.sp.val - 1) = k.castSucc := Fin.ext (by simp [hk])
    have hslot : s.stack[s.sp.val - 1]?.getD 0#16 = s.slot k := by simp [hk, State.slot]
    rw [exec_ret_of_pos hk, hsp, hslot]
    rfl

theorem exec_call_listing (addr : Addr) (s : State) : exec (.call addr) s = .next
    (if s.sp = 16 then s.raise .stackOverflow (encode (.call addr))
      else { s with
        stack := s.stack.setIfInBounds s.sp.val s.pc, sp := Fin.ofNat 17 (s.sp.val + 1), pc := targetOf addr }) := by
  split
  next h => exact exec_call_of_full addr (Fin.ext_iff.mp h)
  next h =>
    have hlt : s.sp.val < 16 := by have : s.sp.val ≠ 16 := fun e => h (Fin.ext e); omega
    have hsp : Fin.ofNat 17 (s.sp.val + 1) = ⟨s.sp.val + 1, Nat.succ_lt_succ hlt⟩ := Fin.ext (Nat.mod_eq_of_lt (by omega))
    have hstack : s.stack.setIfInBounds s.sp.val s.pc = s.stack.set s.sp.val s.pc hlt := by
      ext i hi
      simp [Vector.getElem_set, Vector.getElem_setIfInBounds]
    rw [exec_call_of_lt addr hlt, hsp, hstack]
    rfl

/-- A skip as the listing writes it, on a condition rather than a Bool. -/
theorem State.skipIf_listing (s : State) {taken : Bool} {p : Prop} [Decidable p] (h : taken = true ↔ p) :
    s.skipIf taken = if p then { s with pc := s.pc + 2#16 } else s :=
  if_congr h rfl rfl

theorem setWidth_sum9 (a b : Byte) : (sum9 a b).setWidth 8 = sum8 a b :=
  BitVec.setWidth_eq_extractLsb' (by decide)

theorem setWidth_sum9_shift (a b : Byte) : (sum9 a b >>> 8).setWidth 8 = carryFlag a b := by
  apply BitVec.eq_of_toNat_eq
  have := (sum9 a b).isLt
  simp only [carryFlag, BitVec.toNat_setWidth, BitVec.extractLsb'_toNat, BitVec.toNat_ushiftRight, Nat.shiftRight_eq_div_pow]
  omega

theorem exec_addReg_listing (x y : RegIdx) (s : State) :
    let sum := sum9 (s.reg x) (s.reg y)
    exec (.addReg x y) s = .next ((s.writeReg x (sum.setWidth 8)).writeReg 0xF ((sum >>> 8).setWidth 8)) := by
  intro sum
  rw [setWidth_sum9, setWidth_sum9_shift]
  rfl

theorem State.not_regEquals_iff (s : State) (x : RegIdx) (o : Source) : (!s.regEquals x o) = true ↔ s.reg x ≠ o.value s := by
  rw [Bool.not_eq_true', ← Bool.not_eq_true, State.regEquals_iff]

/-- The listing of an instruction's word is the instruction's routine: the word meets its own row's test only, and the
listing's fields are the operands. -/
theorem exec_eq_listingExecute (i : Instr) (s : State) : exec i s = .next (listingExecute (encode i) s) := by
  have tests : ∀ row ∈ opcodeTable, (encode i &&& row.mask = row.pattern ↔ row.mnemonic = i.mnemonic) :=
    fun row => encode_test_iff i
  simp only [opcodeTable, List.cons_append, List.nil_append, List.forall_mem_cons, ← eq_iff_and_ones] at tests
  simp only [listingExecute, tests, listingNibble_eight, listingNibble_four, ofNat_toNat_eq_fieldKk, and_addrMask]
  cases i <;> simp only [Instr.mnemonic, reduceCtorEq, if_true, if_false, encode, fieldAddr_encodeA, fieldX_encodeXK,
    fieldKk_encodeXK, fieldX_encodeXY, fieldY_encodeXY]
  case halt => rfl
  case ret => exact exec_ret_listing s
  case jmp addr => rfl
  case call addr => exact exec_call_listing addr s
  case skipEqImm x kk => exact congrArg _ (s.skipIf_listing (s.regEquals_iff x (.imm kk)))
  case skipNeImm x kk => exact congrArg _ (s.skipIf_listing (s.not_regEquals_iff x (.imm kk)))
  case skipEqReg x y => exact congrArg _ (s.skipIf_listing (s.regEquals_iff x (.reg y)))
  case loadImm x kk => rfl
  case addImm x kk => rw [← sum8_eq_add]; rfl
  case loadReg x y => rfl
  case orReg x y => rfl
  case andReg x y => rfl
  case xorReg x y => rfl
  case addReg x y => exact exec_addReg_listing x y s

/-- Settles O9, by the cases of `step`: the refused fetch and the default arm are the listing's own lines, and a decoded word
is the word of its instruction. -/
theorem stepFollowsTheListing : Obligations.StepFollowsTheListing := by
  unfold Obligations.StepFollowsTheListing
  intro s
  unfold listingStep
  split
  next hrun => exact step_of_ended hrun
  next hrun =>
    have hrun : s.runState = .fetching := not_not.mp hrun
    split
    next hpc => exact step_of_refused hrun (State.fetch_of_ge (by omega))
    next hpc =>
      have hfetch : s.fetch = some (s.mem.read s.pc.toNat ++ s.mem.read (s.pc.toNat + 1)) := State.fetch_of_le (by omega)
      cases hd : decode (s.mem.read s.pc.toNat ++ s.mem.read (s.pc.toNat + 1)) with
      | error e =>
        rw [step_of_unimplemented hrun hfetch hd, listingExecute_of_error hd]
        rfl
      | ok i =>
        rw [step_of_decoded hrun hfetch hd, exec_eq_listingExecute, encode_of_decode hd]
        rfl

end Sys2Proof.Machine
end

section
/-! PROOFS. Control flow (rules R90 to R94): the routines of HALT, RET, JMP and CALL with their frames, and that a RET resumes
after its CALL because no step writes a slot below `sp`. -/

namespace Sys2Proof.Machine

variable {s t : State}

/-! ## HALT and RET -/

/-- Settles O18: HALT leaves `s.halt`, which differs from `s` in the run state only. -/
theorem haltStopsTheRunLoop : Obligations.HaltStopsTheRunLoop := by
  unfold Obligations.HaltStopsTheRunLoop
  exact ⟨rfl, fun s => ⟨s.halt, rfl, rfl, rfl, rfl, fun _ _ => rfl, ⟨fun _ => rfl, rfl⟩, fun _ => rfl⟩⟩

/-- Settles O19, by the equations of RET at each `sp`. -/
theorem retPopsOrUnderflows : Obligations.RetPopsOrUnderflows := by
  unfold Obligations.RetPopsOrUnderflows
  refine ⟨decode_ret, fun s k hsp => ?_, fun s hempty => exec_ret_of_empty hempty⟩
  exact ⟨s.afterRet k, exec_ret_of_pos hsp, rfl, rfl, fun _ => rfl, fun _ _ => rfl, fun _ => rfl, rfl, rfl⟩

/-! ## JMP and CALL -/

/-- The words of format A as numbers (rule R52). -/
theorem encodeA_eq_ofNat (c : BitVec 4) (addr : Addr) : encodeA c addr = BitVec.ofNat 16 (c.toNat * 4096 + addr.toNat) := by
  rw [← encodeA_toNat, BitVec.ofNat_toNat, BitVec.setWidth_eq]

theorem encode_jmp (addr : Addr) : encode (.jmp addr) = BitVec.ofNat 16 (0x1000 + addr.toNat) :=
  encodeA_eq_ofNat 0x1#4 addr

theorem encode_call (addr : Addr) : encode (.call addr) = BitVec.ofNat 16 (0x2000 + addr.toNat) :=
  encodeA_eq_ofNat 0x2#4 addr

/-- A fetch is refused exactly from 0xFFF on (rules R34, R72). -/
theorem State.fetch_eq_none_iff : s.fetch = none ↔ 0xFFF ≤ s.pc.toNat :=
  ⟨State.le_pc_of_fetch_none, State.fetch_of_ge⟩

/-- The last address is the one target that reaches 0xFFF (rule R92). -/
theorem addr_eq_last_iff (addr : Addr) : 0xFFF ≤ addr.toNat ↔ addr = 0xFFF#12 := by
  bv_omega

/-- Settles O20: JMP leaves `s` with `pc` at the target, where a fetch is refused exactly from 0xFFF on. -/
theorem jmpSetsPc : Obligations.JmpSetsPc := by
  unfold Obligations.JmpSetsPc
  intro addr s
  have hrefused : (s.setPc (targetOf addr)).fetch = none ↔ addr = 0xFFF#12 := by
    rw [State.fetch_eq_none_iff, State.setPc_pc, targetOf_toNat, addr_eq_last_iff]
  exact ⟨encode_jmp addr ▸ decode_encode (.jmp addr), s.setPc (targetOf addr), rfl, targetOf_toNat addr, hrefused,
    fun _ _ => rfl, ⟨fun _ => rfl, rfl⟩, fun _ => rfl, rfl, rfl⟩

/-- Settles O21, by the equations of CALL at each `sp`; the word it records on a full stack is its own encoding. -/
theorem callPushesOrOverflows : Obligations.CallPushesOrOverflows := by
  unfold Obligations.CallPushesOrOverflows
  intro addr s
  rw [← encode_call]
  refine ⟨decode_encode (.call addr), fun hroom => ?_, fun hfull => exec_call_of_full addr hfull⟩
  exact ⟨s.afterCall addr hroom, exec_call_of_lt addr hroom, State.afterCall_slot addr hroom, rfl, targetOf_toNat addr,
    fun _ _ => rfl, fun _ => rfl, rfl, rfl⟩

/-! ## A RET resumes after its CALL (rule R94) -/

/-- No step writes a live slot: a CALL writes the slot at `sp`, and nothing else writes one (rules R18, R19). -/
theorem step_slot_of_lt_sp {k : Fin 16} (hlive : k.val < s.sp.val) (h : step s = .next t) : t.slot k = s.slot k := by
  rcases onlyCallAndRetMoveTheStack.1 s t h with ⟨hslots, -⟩ | ⟨iw, -, -, -, -, hslots⟩ | ⟨-, -, -, hslots⟩
  · exact hslots k
  · rw [hslots k, if_neg (by omega)]
  · exact hslots k

/-- A slot that is live all through a run keeps its value. -/
theorem runFor_slot_of_lt_sp {k : Fin 16} : ∀ {n : Nat} {s t : State},
    (∀ m, m ≤ n → ∀ v, runFor m s = .next v → k.val < v.sp.val) → runFor n s = .next t → t.slot k = s.slot k
  | 0, s, t, _, h => by cases h; rfl
  | n + 1, s, t, hlive, h => by
    obtain ⟨u, hu⟩ := exists_next_of_step s
    have hrest : ∀ m, m ≤ n → ∀ v, runFor m u = .next v → k.val < v.sp.val := fun m hm v hv =>
      hlive (m + 1) (Nat.succ_le_succ hm) v ((runFor_succ hu m).trans hv)
    calc t.slot k
      _ = u.slot k := runFor_slot_of_lt_sp hrest ((runFor_succ hu n).symm.trans h)
      _ = s.slot k := step_slot_of_lt_sp (hlive 0 (Nat.zero_le _) s rfl) hu

/-- A step that runs a CALL with room saves the address after it in the slot at the old `sp` (rules R73, R93). -/
theorem step_call_slot {iw : Word} {addr : Addr} {k : Fin 16} (hfetch : s.Fetches iw) (hdecode : decode iw = .ok (.call addr))
    (hk : k.val = s.sp.val) (h : step s = .next t) : t.slot k = s.pc + 2#16 := by
  have hroom : s.advancePc.sp.val < 16 := hk ▸ k.isLt
  cases h.symm.trans ((step_of_fetches hfetch hdecode).trans (exec_call_of_lt addr hroom))
  exact (State.afterCall_slot addr hroom k).trans (if_pos hk)

/-- Settles O24: the CALL saves `pc + 2` in slot `k`, the slot is live all through the run, and the RET takes `pc` from it. -/
theorem returnResumesAfterTheCall : Obligations.ReturnResumesAfterTheCall := by
  unfold Obligations.ReturnResumesAfterTheCall
  intro s t u iw addr n hfetch hdecode hroom hcall hlive hrun hsp hret
  obtain ⟨k, hk⟩ : ∃ k : Fin 16, k.val = s.sp.val := ⟨⟨s.sp.val, hroom⟩, rfl⟩
  rw [← hk] at hlive hsp
  have hsaved : t.slot k = s.pc + 2#16 := step_call_slot hfetch hdecode hk hcall
  have hkept : u.slot k = t.slot k := runFor_slot_of_lt_sp hlive hrun
  have hstep : step u = .next (u.advancePc.afterRet k) := (step_of_fetches hret decode_ret).trans (exec_ret_of_pos hsp)
  exact ⟨_, hstep, hkept.trans hsaved, Fin.ext hk⟩

end Sys2Proof.Machine
end

section
/-! PROOFS. The conditional skips (rules R100 to R103): their words, and that a skip moves `pc` by its condition and leaves
everything else as it was. -/

namespace Sys2Proof.Machine

variable {s : State}

/-! ## The words of the skips (rule R52) -/

/-- The words of format XK as numbers. -/
theorem encodeXK_eq_ofNat (c : BitVec 4) (x : RegIdx) (kk : Byte) :
    encodeXK c x kk = BitVec.ofNat 16 (c.toNat * 4096 + x.val * 256 + kk.toNat) := by
  rw [← encodeXK_toNat, BitVec.ofNat_toNat, BitVec.setWidth_eq]

/-- The words of format XY as numbers. -/
theorem encodeXY_eq_ofNat (c : BitVec 4) (x y : RegIdx) (minor : BitVec 4) :
    encodeXY c x y minor = BitVec.ofNat 16 (c.toNat * 4096 + x.val * 256 + y.val * 16 + minor.toNat) := by
  rw [← encodeXY_toNat, BitVec.ofNat_toNat, BitVec.setWidth_eq]

theorem encode_skipEqImm (x : RegIdx) (kk : Byte) :
    encode (.skipEqImm x kk) = BitVec.ofNat 16 (0x3000 + x.val * 0x100 + kk.toNat) :=
  encodeXK_eq_ofNat 0x3#4 x kk

theorem encode_skipNeImm (x : RegIdx) (kk : Byte) :
    encode (.skipNeImm x kk) = BitVec.ofNat 16 (0x4000 + x.val * 0x100 + kk.toNat) :=
  encodeXK_eq_ofNat 0x4#4 x kk

theorem encode_skipEqReg (x y : RegIdx) :
    encode (.skipEqReg x y) = BitVec.ofNat 16 (0x5000 + x.val * 0x100 + y.val * 0x10) :=
  encodeXY_eq_ofNat 0x5#4 x y 0x0#4

/-! ## The routines of the skips -/

theorem exec_skipEqImm (x : RegIdx) (kk : Byte) (s : State) :
    exec (.skipEqImm x kk) s = .next (s.skipIf (s.regEquals x (.imm kk))) := rfl

theorem exec_skipNeImm (x : RegIdx) (kk : Byte) (s : State) :
    exec (.skipNeImm x kk) s = .next (s.skipIf (!s.regEquals x (.imm kk))) := rfl

theorem exec_skipEqReg (x y : RegIdx) (s : State) :
    exec (.skipEqReg x y) s = .next (s.skipIf (s.regEquals x (.reg y))) := rfl

/-- Where a skip goes, on its condition rather than a Bool (rule R103). -/
theorem State.skipIf_pc {taken : Bool} {p : Prop} [Decidable p] (h : taken = true ↔ p) :
    (s.skipIf taken).pc = if p then s.pc + 2#16 else s.pc := by
  rw [State.skipIf_eq, State.setPc_pc]
  exact if_congr h rfl rfl

/-- A move of `pc` leaves every other field as it was. -/
theorem State.setPc_frame (s : State) (a : Word) :
    SameRegsExcept [] s (s.setPc a) ∧ SameStack s (s.setPc a) ∧ SameMemory s (s.setPc a) ∧ SameRunState s (s.setPc a) :=
  ⟨fun _ _ => rfl, ⟨fun _ => rfl, rfl⟩, fun _ => rfl, rfl, rfl⟩

/-- A skip leaves everything but `pc` as it was. -/
theorem State.skipIf_frame (s : State) (taken : Bool) :
    SameRegsExcept [] s (s.skipIf taken) ∧ SameStack s (s.skipIf taken) ∧ SameMemory s (s.skipIf taken) ∧
      SameRunState s (s.skipIf taken) :=
  s.skipIf_eq taken ▸ s.setPc_frame _

/-- Settles O25: the two skips take complementary conditions on one comparison (`skipIf_pc`), each with `skipIf_frame`. -/
theorem skipImmComparesAllBits : Obligations.SkipImmComparesAllBits := by
  unfold Obligations.SkipImmComparesAllBits
  intro x kk s
  rw [← encode_skipEqImm, ← encode_skipNeImm]
  obtain ⟨hregs, hstack, hmem, hrun⟩ := s.skipIf_frame (s.regEquals x (.imm kk))
  exact ⟨decode_encode _, decode_encode _, _, _, exec_skipEqImm x kk s, exec_skipNeImm x kk s,
    State.skipIf_pc (s.regEquals_iff x (.imm kk)),
    (State.skipIf_pc (s.not_regEquals_iff x (.imm kk))).trans (ite_not _ _ _),
    hregs, hstack, hmem, hrun, s.skipIf_frame _⟩

/-- Settles O26, by `skipIf_pc` and `skipIf_frame`; a register equals itself, so for `x = y` the skip is taken. -/
theorem skipEqRegComparesRegisters : Obligations.SkipEqRegComparesRegisters := by
  unfold Obligations.SkipEqRegComparesRegisters
  intro x y s
  rw [← encode_skipEqReg]
  have hself : s.regEquals x (.reg x) = true := (s.regEquals_iff x (.reg x)).mpr rfl
  refine ⟨decode_encode _, ⟨_, exec_skipEqReg x y s, State.skipIf_pc (s.regEquals_iff x (.reg y)), s.skipIf_frame _⟩, ?_⟩
  rw [exec_skipEqReg, hself]
  rfl

/-! ## The step of a skip (rule R103) -/

/-- After the fetch advance a skip moves `pc` only, once more or not. -/
theorem State.advancePc_skipIf (s : State) (taken : Bool) :
    s.advancePc.skipIf taken = s.setPc (if taken then s.pc + 2#16 + 2#16 else s.pc + 2#16) :=
  State.skipIf_eq s.advancePc taken

/-- Two advances from an address where a fetch succeeds do not wrap (rule R15). -/
theorem State.Fetches.pc_add_four_toNat {iw : Word} (h : s.Fetches iw) : (s.pc + 2#16 + 2#16).toNat = s.pc.toNat + 4 :=
  calc (s.pc + 2#16 + 2#16).toNat
    _ = (s.pc + 2#16).toNat + 2 := pc_add_two_toNat h.advancePc_le
    _ = s.pc.toNat + 4 := by rw [pc_add_two_toNat (h.pc_le.trans (by decide))]

/-- Settles O27: each of the three routines skips on its condition, which the fetch advance does not touch, and from an
address where a fetch succeeds neither advance wraps. -/
theorem skipsAdvanceByFourOrTwo : Obligations.SkipsAdvanceByFourOrTwo := by
  unfold Obligations.SkipsAdvanceByFourOrTwo
  intro s iw i condition hfetch hdecode hskip
  obtain ⟨taken, hexec, htaken⟩ :
      ∃ taken, exec i s.advancePc = .next (s.advancePc.skipIf taken) ∧ (taken = true ↔ condition) := by
    rcases hskip with ⟨x, kk, rfl, hcond⟩ | ⟨x, kk, rfl, hcond⟩ | ⟨x, y, rfl, hcond⟩
    · exact ⟨_, exec_skipEqImm x kk s.advancePc, (s.advancePc.regEquals_iff x (.imm kk)).trans hcond.symm⟩
    · exact ⟨_, exec_skipNeImm x kk s.advancePc, (s.advancePc.not_regEquals_iff x (.imm kk)).trans hcond.symm⟩
    · exact ⟨_, exec_skipEqReg x y s.advancePc, (s.advancePc.regEquals_iff x (.reg y)).trans hcond.symm⟩
  rw [State.advancePc_skipIf] at hexec
  refine ⟨_, (step_of_fetches hfetch hdecode).trans hexec, fun h => ?_, fun h => ?_, s.setPc_frame _⟩
  · rw [State.setPc_pc, if_pos (htaken.mpr h), hfetch.pc_add_four_toNat]
  · rw [State.setPc_pc, if_neg (h ∘ htaken.mp), pc_add_two_toNat (hfetch.pc_le.trans (by decide))]

end Sys2Proof.Machine
end

section
/-! PROOFS. The register-immediate instructions (rules R110, R111): their words, and that each is one register write. -/

namespace Sys2Proof.Machine

variable {s : State}

/-! ## The words of LOAD.IMM and ADD.IMM (rule R52) -/

theorem encode_loadImm (x : RegIdx) (kk : Byte) :
    encode (.loadImm x kk) = BitVec.ofNat 16 (0x6000 + x.val * 0x100 + kk.toNat) :=
  encodeXK_eq_ofNat 0x6#4 x kk

theorem encode_addImm (x : RegIdx) (kk : Byte) :
    encode (.addImm x kk) = BitVec.ofNat 16 (0x7000 + x.val * 0x100 + kk.toNat) :=
  encodeXK_eq_ofNat 0x7#4 x kk

/-! ## One register write -/

theorem exec_loadImm (x : RegIdx) (kk : Byte) (s : State) : exec (.loadImm x kk) s = .next (s.writeReg x kk) := rfl

theorem exec_addImm (x : RegIdx) (kk : Byte) (s : State) :
    exec (.addImm x kk) s = .next (s.writeReg x (sum8 (s.reg x) kk)) := rfl

theorem State.writeReg_reg_same (x : RegIdx) (v : Byte) : (s.writeReg x v).reg x = v := by
  rw [State.writeReg_reg, if_pos rfl]

theorem State.writeReg_reg_of_ne {x j : RegIdx} (h : j ≠ x) (v : Byte) : (s.writeReg x v).reg j = s.reg j := by
  rw [State.writeReg_reg, if_neg h]

/-- A register write leaves `pc`, every other register and every other field as it was. -/
theorem State.writeReg_frame (s : State) (x : RegIdx) (v : Byte) :
    (s.writeReg x v).pc = s.pc ∧ SameRegsExcept [x] s (s.writeReg x v) ∧ SameStack s (s.writeReg x v) ∧
      SameMemory s (s.writeReg x v) ∧ SameRunState s (s.writeReg x v) :=
  ⟨rfl, fun _ hj => State.writeReg_reg_of_ne (List.ne_of_not_mem_cons hj) v, ⟨fun _ => rfl, rfl⟩, fun _ => rfl, rfl, rfl⟩

/-- Settles O28: LOAD.IMM is the write of `kk`, with `writeReg_frame`. -/
theorem loadImmSetsRegister : Obligations.LoadImmSetsRegister := by
  unfold Obligations.LoadImmSetsRegister
  intro x kk s
  rw [← encode_loadImm]
  exact ⟨decode_encode _, _, exec_loadImm x kk s, State.writeReg_reg_same x kk, s.writeReg_frame x kk⟩

/-- Settles O29: ADD.IMM is the write of the 8-bit sum (`sum8_toNat`), with `writeReg_frame`; the flag register is a register
like any other. -/
theorem addImmWrapsWithoutFlag : Obligations.AddImmWrapsWithoutFlag := by
  unfold Obligations.AddImmWrapsWithoutFlag
  intro x kk s
  rw [← encode_addImm]
  refine ⟨decode_encode _, _, exec_addImm x kk s, ?_, fun hx => State.writeReg_reg_of_ne hx.symm _, s.writeReg_frame x _⟩
  rw [State.writeReg_reg_same, sum8_toNat]

end Sys2Proof.Machine
end

section
/-! PROOFS. The register-register family (rules R120 to R125): its words, and that each instruction is a register write, ADD.REG
followed by the flag's. -/

namespace Sys2Proof.Machine

variable {s : State}

/-! ## The words of class 8 (rule R52) -/

/-- The words of class 8 as numbers, the constant fields `op_class` and `op_minor` taken together. -/
theorem encodeXY_eight_eq_ofNat (x y : RegIdx) (minor : BitVec 4) :
    encodeXY 0x8#4 x y minor = BitVec.ofNat 16 (0x8000 + minor.toNat + x.val * 0x100 + y.val * 0x10) := by
  rw [encodeXY_eq_ofNat, Nat.add_right_comm _ minor.toNat, Nat.add_right_comm _ minor.toNat]
  rfl

theorem encode_loadReg (x y : RegIdx) :
    encode (.loadReg x y) = BitVec.ofNat 16 (0x8000 + x.val * 0x100 + y.val * 0x10) :=
  encodeXY_eight_eq_ofNat x y 0x0#4

theorem encode_orReg (x y : RegIdx) :
    encode (.orReg x y) = BitVec.ofNat 16 (0x8001 + x.val * 0x100 + y.val * 0x10) :=
  encodeXY_eight_eq_ofNat x y 0x1#4

theorem encode_andReg (x y : RegIdx) :
    encode (.andReg x y) = BitVec.ofNat 16 (0x8002 + x.val * 0x100 + y.val * 0x10) :=
  encodeXY_eight_eq_ofNat x y 0x2#4

theorem encode_xorReg (x y : RegIdx) :
    encode (.xorReg x y) = BitVec.ofNat 16 (0x8003 + x.val * 0x100 + y.val * 0x10) :=
  encodeXY_eight_eq_ofNat x y 0x3#4

theorem encode_addReg (x y : RegIdx) :
    encode (.addReg x y) = BitVec.ofNat 16 (0x8004 + x.val * 0x100 + y.val * 0x10) :=
  encodeXY_eight_eq_ofNat x y 0x4#4

/-! ## The routines of one write -/

theorem exec_loadReg (x y : RegIdx) (s : State) : exec (.loadReg x y) s = .next (s.writeReg x (s.reg y)) := rfl

theorem exec_orReg (x y : RegIdx) (s : State) :
    exec (.orReg x y) s = .next (s.writeReg x (s.reg x ||| s.reg y)) := rfl

theorem exec_andReg (x y : RegIdx) (s : State) :
    exec (.andReg x y) s = .next (s.writeReg x (s.reg x &&& s.reg y)) := rfl

theorem exec_xorReg (x y : RegIdx) (s : State) :
    exec (.xorReg x y) s = .next (s.writeReg x (s.reg x ^^^ s.reg y)) := rfl

/-- Settles O30: LOAD.REG is the write of the other register's value, with `writeReg_frame`. -/
theorem loadRegCopies : Obligations.LoadRegCopies := by
  unfold Obligations.LoadRegCopies
  intro x y s
  rw [← encode_loadReg]
  exact ⟨decode_encode _, _, exec_loadReg x y s, State.writeReg_reg_same x _, s.writeReg_frame x _⟩

/-- Settles O31: each of the three is the write of the operation on the whole byte, which acts on each bit by itself, with
`writeReg_frame`. -/
theorem logicalOpsActBitwise : Obligations.LogicalOpsActBitwise := by
  unfold Obligations.LogicalOpsActBitwise
  intro x y s
  obtain ⟨hpcOr, hregsOr, hstackOr, hmemOr, hrunOr⟩ := s.writeReg_frame x (s.reg x ||| s.reg y)
  obtain ⟨hpcAnd, hregsAnd, hstackAnd, hmemAnd, hrunAnd⟩ := s.writeReg_frame x (s.reg x &&& s.reg y)
  rw [← encode_orReg, ← encode_andReg, ← encode_xorReg]
  refine ⟨decode_encode _, decode_encode _, decode_encode _, _, _, _,
    exec_orReg x y s, exec_andReg x y s, exec_xorReg x y s, fun n => ?_, fun n => ?_, fun n => ?_,
    hpcOr, hregsOr, hstackOr, hmemOr, hrunOr, hpcAnd, hregsAnd, hstackAnd, hmemAnd, hrunAnd, s.writeReg_frame x _⟩
  · rw [State.writeReg_reg_same, BitVec.getLsbD_or]
  · rw [State.writeReg_reg_same, BitVec.getLsbD_and]
  · rw [State.writeReg_reg_same, BitVec.getLsbD_xor, Bool.bne_eq_xor]

/-! ## ADD.REG: the sum, then the flag (rules R124, R125) -/

/-- The flag write does not reach a destination other than the flag register. -/
theorem State.writeReg_writeReg_reg_of_ne {x : RegIdx} (hx : x ≠ 0xF) (v w : Byte) :
    ((s.writeReg x v).writeReg 0xF w).reg x = v := by
  rw [State.writeReg_reg_of_ne hx, State.writeReg_reg_same]

/-- Settles O32: the flag is written last, so it reads the carry whatever the destination; the rest is the frame of the two
writes. -/
theorem addRegWrapsAndSetsFlag : Obligations.AddRegWrapsAndSetsFlag := by
  unfold Obligations.AddRegWrapsAndSetsFlag
  intro x y s
  rw [← encode_addReg]
  have hregs := (execEffect_of_exec (exec_addReg x y s)).sameRegsExcept
  refine ⟨decode_encode _, _, exec_addReg x y s, ?flag, fun hx => ?sum, rfl, hregs, ⟨fun _ => rfl, rfl⟩, fun _ => rfl,
    rfl, rfl⟩
  case flag => rw [State.writeReg_reg_same, carryFlag_eq]
  case sum => rw [State.writeReg_writeReg_reg_of_ne hx, BitVec.toNat_add]

/-- The flag of ADD.REG is bit 8 of the sum (rule R124). -/
theorem carryFlag_toNat (a b : Byte) : (carryFlag a b).toNat = (a.toNat + b.toNat) / 256 := by
  have := a.isLt
  have := b.isLt
  rw [carryFlag_eq]
  split <;> simp only [BitVec.toNat_ofNat] <;> omega

/-- Settles O33: both additions leave the sum modulo 256 in the destination, and the flag and the destination are the
quotient and the remainder of the sum by 256. -/
theorem twoAdditionsAgree : Obligations.TwoAdditionsAgree := by
  unfold Obligations.TwoAdditionsAgree
  intro x y s hx
  refine ⟨_, _, exec_addReg x y s, exec_addImm x (s.reg y) s, ?same, ?whole⟩
  case same => rw [State.writeReg_writeReg_reg_of_ne hx, State.writeReg_reg_same, sum8_eq_add]
  case whole =>
    rw [State.writeReg_reg_same, State.writeReg_writeReg_reg_of_ne hx, carryFlag_toNat, BitVec.toNat_add]
    exact Nat.div_add_mod _ 256

end Sys2Proof.Machine
end

section
/-! PROOFS. Faults and clean ends (rules R130 to R134, R138, R141, R170): what caused a fault record, and how a run comes to
be HALTED. -/

namespace Sys2Proof.Machine

variable {s t : State} {i : Instr} {info : Word} {kind : FaultKind}

/-! ## The cause of a fault record -/

/-- The condition under which a step from FETCHING in `s` writes the record `(kind, info)` (rules R131 to R134; decisions
D5, D6). -/
def FaultCause (s : State) (info : Word) : FaultKind → Prop
  | .none => False
  | .stackOverflow => s.fetch = some info ∧ info.toNat / 0x1000 = 2 ∧ s.sp.val = 16
  | .stackUnderflow => s.fetch = some info ∧ info = 0x00EE#16 ∧ s.sp.val = 0
  | .unimplementedOpcode => s.fetch = some info ∧ wellFormedWord info = false
  | .outOfBoundsFetch => info = s.pc ∧ 0xFFF ≤ s.pc.toNat

theorem exists_decode_error {iw : Word} (h : wellFormedWord iw = false) : ∃ e, decode iw = .error e := by
  cases hd : decode iw with
  | error e => exact ⟨e, rfl⟩
  | ok i => exact absurd (h.symm.trans (wellFormedWord_of_decode hd)) (by decide)

/-- An instruction that faults has written the record of its cause, which the word it was decoded from tells. -/
theorem ExecEffect.faultCause {iw : Word} (he : ExecEffect s.advancePc i t) (hf : s.Fetches iw) (hd : decode iw = .ok i)
    (ht : t.runState = .faulted) : FaultCause s t.fault.info t.fault.kind := by
  have hfetch : s.fetch = some (encode i) := encode_of_decode hd ▸ hf.2
  have hpassed : ¬ s.runState = .faulted := by rw [hf.1]; decide
  cases he with
  | halts => cases ht
  | underflows hempty => exact ⟨hfetch, rfl, hempty⟩
  | overflows addr hfull => exact ⟨hfetch, encode_call_div addr, hfull⟩
  | returns | calls | jumps | writes => exact absurd ht hpassed
  | skips => rw [State.skipIf_eq] at ht; exact absurd ht hpassed

theorem faultCause_of_step (hrun : s.runState = .fetching) (h : step s = .next t) (ht : t.runState = .faulted) :
    FaultCause s t.fault.info t.fault.kind := by
  cases stepEffect_of_step h with
  | ended hended => exact absurd hrun hended
  | refused _ hpc => exact ⟨rfl, hpc⟩
  | unimplemented iw hf hw => exact ⟨hf.2, hw⟩
  | runs iw i hf hd he => exact he.faultCause hf hd ht

theorem step_of_faultCause (hrun : s.runState = .fetching) (h : FaultCause s info kind) :
    ∃ u : State, step s = .next (u.raise kind info) := by
  cases kind with
  | none => exact h.elim
  | stackOverflow =>
    obtain ⟨hfetch, hcall, hfull⟩ := h
    have hd := decode_of_class2 hcall
    have hstep := (step_of_decoded hrun hfetch hd).trans (exec_call_of_full _ hfull)
    exact ⟨_, encode_of_decode hd ▸ hstep⟩
  | stackUnderflow =>
    obtain ⟨hfetch, rfl, hempty⟩ := h
    exact ⟨_, (step_of_decoded hrun hfetch decode_ret).trans (exec_ret_of_empty hempty)⟩
  | unimplementedOpcode =>
    obtain ⟨hfetch, hword⟩ := h
    obtain ⟨e, hd⟩ := exists_decode_error hword
    exact ⟨_, step_of_unimplemented hrun hfetch hd⟩
  | outOfBoundsFetch =>
    obtain ⟨rfl, hpc⟩ := h
    exact ⟨_, step_of_refused hrun (State.fetch_of_ge hpc)⟩

/-- A step from FETCHING writes a record exactly when the record's cause is there (rule R130). -/
theorem step_faults_iff_faultCause (hrun : s.runState = .fetching) (h : step s = .next t) (info : Word) (kind : FaultKind) :
    (t.runState = .faulted ∧ t.fault = ⟨kind, info⟩) ↔ FaultCause s info kind := by
  constructor
  · rintro ⟨ht, hrecord⟩
    have hcause := faultCause_of_step hrun h ht
    rwa [hrecord] at hcause
  · intro hcause
    obtain ⟨u, hu⟩ := step_of_faultCause hrun hcause
    cases hu.symm.trans h
    exact ⟨rfl, rfl⟩

/-- Settles O35: each clause is `step_faults_iff_faultCause` at its kind. -/
theorem faultRecordTellsTheCause : Obligations.FaultRecordTellsTheCause := by
  unfold Obligations.FaultRecordTellsTheCause
  intro s t hrun h info
  have hcause := step_faults_iff_faultCause hrun h info
  exact ⟨hcause .stackOverflow, hcause .stackUnderflow, hcause .unimplementedOpcode, hcause .outOfBoundsFetch,
    (hcause .none).mp⟩

/-! ## A run that does not fault keeps the fault record (rules R22, R130) -/

theorem ExecEffect.fault_of_not_faulted (he : ExecEffect s i t) (ht : t.runState ≠ .faulted) : t.fault = s.fault := by
  cases he with
  | underflows | overflows => exact absurd rfl ht
  | skips => rw [State.skipIf_eq, State.setPc_fault]
  | halts | returns | calls | jumps | writes => rfl

/-- A step whose next state is not FAULTED did not start FAULTED either (rule R71), and has written no record. -/
theorem step_fault_of_not_faulted (h : step s = .next t) (ht : t.runState ≠ .faulted) :
    s.runState ≠ .faulted ∧ t.fault = s.fault := by
  cases stepEffect_of_step h with
  | ended => exact ⟨ht, rfl⟩
  | refused | unimplemented => exact absurd rfl ht
  | runs iw i hf hd he => exact ⟨by rw [hf.1]; decide, he.fault_of_not_faulted ht⟩

theorem runFor_fault_of_not_faulted {n : Nat} (h : runFor n s = .next t) (ht : t.runState ≠ .faulted) :
    t.fault = s.fault := by
  have hkeep : ∀ u v : State, (u.runState ≠ .faulted → u.fault = s.fault) → step u = .next v →
      v.runState ≠ .faulted → v.fault = s.fault := fun u v hu huv hv => by
    obtain ⟨hne, hfault⟩ := step_fault_of_not_faulted huv hv
    exact hfault.trans (hu hne)
  exact runFor_keeps hkeep (fun _ => rfl) h ht

/-! ## The end of a run -/

/-- A run that has left FETCHING left it by one of its steps, and that step's next state is the run's last (rules R71, R77). -/
theorem exists_last_step_of_runFor : ∀ {n : Nat} {s t : State}, s.runState = .fetching → runFor n s = .next t →
    t.runState ≠ .fetching → ∃ k u, k < n ∧ runFor k s = .next u ∧ u.runState = .fetching ∧ step u = .next t
  | 0, s, t, hrun, h, ht => by cases h; exact absurd hrun ht
  | n + 1, s, t, hrun, h, ht => by
    obtain ⟨u, hu⟩ := exists_next_of_step s
    rw [runFor_succ hu] at h
    by_cases hgoes : u.runState = .fetching
    · obtain ⟨k, v, hk, hv, hlast⟩ := exists_last_step_of_runFor hgoes h ht
      exact ⟨k + 1, v, Nat.succ_lt_succ hk, (runFor_succ hu k).trans hv, hlast⟩
    · cases (runFor_of_ended hgoes n).symm.trans h
      exact ⟨0, s, Nat.succ_pos n, rfl, hrun, hu⟩

/-- A step from FETCHING that ends HALTED has run HALT (rules R73, R90). -/
theorem step_eq_halt_of_halted (hrun : s.runState = .fetching) (h : step s = .next t) (ht : t.runState = .halted) :
    s.Fetches 0x0000#16 ∧ t = s.advancePc.halt := by
  obtain ⟨u, hu, hfetching, -⟩ := runLoopTransitions s
  cases hu.symm.trans h
  have hfetches : s.Fetches 0x0000#16 := ⟨hrun, (hfetching hrun).1.mp ht⟩
  have hhalt : step s = .next s.advancePc.halt := step_of_fetches hfetches rfl
  cases hhalt.symm.trans h
  exact ⟨hfetches, rfl⟩

/-- Settles O37: the run's last step by `exists_last_step_of_runFor`, which ran HALT, and the record because HALTED is not
FAULTED. -/
theorem cleanRunEndsAtHalt : Obligations.CleanRunEndsAtHalt := by
  unfold Obligations.CleanRunEndsAtHalt
  intro n s t hrun h ht
  have hhalted : t.runState = .halted := ht
  obtain ⟨k, u, hk, hu, hfetching, hlast⟩ := exists_last_step_of_runFor hrun h (by rw [hhalted]; decide)
  obtain ⟨hfetches, heq⟩ := step_eq_halt_of_halted hfetching hlast hhalted
  exact ⟨runFor_fault_of_not_faulted h (by rw [hhalted]; decide), k, u, hk, hu, hfetches, heq⟩

end Sys2Proof.Machine
end

section
/-! PROOFS. The host interface (rules R160 to R164, R169): reset, the write window, the order of host writes and the budget of a
run. -/

namespace Sys2Proof.Machine

variable {s : State} {ss ss' : Session}

/-! ## Histories one after the other -/

/-- A history with a meaning, then another, is the other from where the first ends. -/
theorem applyAll_append : ∀ {ops : List HostOp} {ss ss' : Session}, applyAll ops ss = .next ss' →
    ∀ ops', applyAll (ops ++ ops') ss = applyAll ops' ss'
  | [], ss, ss', h, ops' => by cases h; rfl
  | op :: ops, ss, ss', h, ops' => by
    obtain ⟨u, hu, hrest⟩ := applyAll_cons_next h
    exact (applyAll_cons_of_next hu (ops ++ ops')).trans (applyAll_append hrest ops')

/-! ## Steps, Runs and Observes always have a meaning -/

theorem exists_next_of_runFor (n : Nat) (s : State) : ∃ t, runFor n s = .next t := by
  obtain ⟨t, -, h, -⟩ := runFor_and_steps n s false
  exact ⟨t, h⟩

theorem HostOp.exists_next_of_not_write {op : HostOp} (hw : op.isWrite = false) (ss : Session) :
    ∃ ss', op.apply ss = .next ss' := by
  cases op with
  | reset => exact ⟨_, HostOp.apply_reset⟩
  | step =>
    obtain ⟨t, ht⟩ := exists_next_of_step ss.core
    exact ⟨⟨t, true⟩, congrArg Session.advanced ht⟩
  | run n =>
    obtain ⟨t, ht⟩ := exists_next_of_runFor n ss.core
    exact ⟨⟨t, true⟩, congrArg Session.advanced ht⟩
  | observe => exact ⟨_, HostOp.apply_observe⟩
  | writeMem a b => cases hw
  | writeReg i b => cases hw

theorem applyAll_exists_next_of_no_write : ∀ {ops : List HostOp}, (∀ op ∈ ops, op.isWrite = false) →
    ∀ ss, ∃ ss', applyAll ops ss = .next ss'
  | [], _, ss => ⟨ss, rfl⟩
  | op :: ops, hops, ss => by
    obtain ⟨hop, hrest⟩ := List.forall_mem_cons.mp hops
    obtain ⟨u, hu⟩ := HostOp.exists_next_of_not_write hop ss
    rw [applyAll_cons_of_next hu]
    exact applyAll_exists_next_of_no_write hrest u

/-! ## Host writes in the window -/

/-- The machine after a host write (rule R163); an operation that is no write leaves it. -/
def HostOp.written : HostOp → State → State
  | .writeMem a b, s => s.writeMem a b
  | .writeReg i b, s => s.writeReg i b
  | .reset, s | .step, s | .run _, s | .observe, s => s

/-- A write that the interface has. -/
def HostOp.ValidWrite (op : HostOp) : Prop := op.isWrite = true ∧ op.wellFormed = true

theorem HostOp.validWrite_writeMem {a : Nat} (ha : a ≤ 0xFFF) (b : Byte) : (HostOp.writeMem a b).ValidWrite :=
  ⟨rfl, decide_eq_true (Nat.lt_succ_of_le ha)⟩

theorem HostOp.validWrite_writeReg (i : RegIdx) (b : Byte) : (HostOp.writeReg i b).ValidWrite := ⟨rfl, rfl⟩

/-- What a valid write does is `written`, if the window is open, and `hostWrite` refuses it otherwise. -/
theorem HostOp.apply_validWrite {op : HostOp} (hv : op.ValidWrite) : op.apply ss = ss.hostWrite (op.written ss.core) := by
  obtain ⟨hw, hf⟩ := hv
  cases op with
  | writeMem a b => exact HostOp.apply_writeMem_of_lt (of_decide_eq_true hf) b
  | writeReg i b => exact HostOp.apply_writeReg i b
  | reset => cases hw
  | step => cases hw
  | run n => cases hw
  | observe => cases hw

theorem HostOp.apply_validWrite_of_open {op : HostOp} (hv : op.ValidWrite) (h : ss.windowClosed = false) :
    op.apply ss = .next ⟨op.written ss.core, false⟩ :=
  (HostOp.apply_validWrite hv).trans (Session.hostWrite_of_open h _)

theorem HostOp.apply_validWrite_of_closed {op : HostOp} (hv : op.ValidWrite) (h : ss.windowClosed = true) :
    op.apply ss = .refused .writeWindowClosed :=
  (HostOp.apply_validWrite hv).trans (Session.hostWrite_of_closed h _)

/-- In the window a history of valid writes does them one after the other and leaves the window open. -/
theorem applyAll_validWrites : ∀ {ops : List HostOp}, (∀ op ∈ ops, op.ValidWrite) → ∀ {ss : Session},
    ss.windowClosed = false → applyAll ops ss = .next ⟨ops.foldl (fun s op => op.written s) ss.core, false⟩
  | [], _, ⟨_, _⟩, h => by cases h; rfl
  | op :: ops, hops, ss, h => by
    obtain ⟨hop, hrest⟩ := List.forall_mem_cons.mp hops
    rw [applyAll_cons_of_next (HostOp.apply_validWrite_of_open hop h)]
    exact applyAll_validWrites hrest rfl

theorem applyAll_one_write {op : HostOp} (hv : op.ValidWrite) (h : ss.windowClosed = false) :
    applyAll [op] ss = .next ⟨op.written ss.core, false⟩ :=
  applyAll_validWrites (List.forall_mem_singleton.mpr hv) h

theorem applyAll_two_writes {op op' : HostOp} (hv : op.ValidWrite) (hv' : op'.ValidWrite) (h : ss.windowClosed = false) :
    applyAll [op, op'] ss = .next ⟨op'.written (op.written ss.core), false⟩ :=
  applyAll_validWrites (List.forall_mem_cons.mpr ⟨hv, List.forall_mem_singleton.mpr hv'⟩) h

/-- In the window two valid writes that commute on the machine commute as a history. -/
theorem applyAll_two_writes_comm {op op' : HostOp} (hv : op.ValidWrite) (hv' : op'.ValidWrite) (h : ss.windowClosed = false)
    (hcomm : op'.written (op.written ss.core) = op.written (op'.written ss.core)) :
    applyAll [op, op'] ss = applyAll [op', op] ss := by
  rw [applyAll_two_writes hv hv' h, applyAll_two_writes hv' hv h, hcomm]

/-- In the window a valid write that overwrites another on the machine does so as a history. -/
theorem applyAll_two_writes_last {op op' : HostOp} (hv : op.ValidWrite) (hv' : op'.ValidWrite) (h : ss.windowClosed = false)
    (hlast : op'.written (op.written ss.core) = op'.written ss.core) :
    applyAll [op, op'] ss = applyAll [op'] ss := by
  rw [applyAll_two_writes hv hv' h, applyAll_one_write hv' h, hlast]

/-! ## Two writes on the machine (rule R164) -/

theorem State.writeMem_writeMem_same (hm : s.mem.wf = true) {a : Nat} (ha : a < 4096) (v w : Byte) :
    (s.writeMem a v).writeMem a w = s.writeMem a w :=
  congrArg (fun m => { s with mem := m }) (Memory.write_write_same hm ha v w)

theorem State.writeMem_comm (hm : s.mem.wf = true) {a a' : Nat} (ha : a < 4096) (ha' : a' < 4096) (hne : a ≠ a') (v w : Byte) :
    (s.writeMem a v).writeMem a' w = (s.writeMem a' w).writeMem a v :=
  congrArg (fun m => { s with mem := m }) (Memory.write_comm hm ha ha' hne v w)

theorem State.writeReg_writeReg_same (s : State) (x : RegIdx) (v w : Byte) :
    (s.writeReg x v).writeReg x w = s.writeReg x w :=
  congrArg (fun regs => { s with regs := regs }) (Vector.set_set v x.isLt)

theorem State.writeReg_comm (s : State) {x y : RegIdx} (hne : x ≠ y) (v w : Byte) :
    (s.writeReg x v).writeReg y w = (s.writeReg y w).writeReg x v :=
  congrArg (fun regs => { s with regs := regs }) (Vector.set_comm v w (Fin.val_ne_of_ne hne))

theorem State.writeMem_writeReg_comm (s : State) (a : Nat) (x : RegIdx) (v w : Byte) :
    (s.writeMem a v).writeReg x w = (s.writeReg x w).writeMem a v := rfl

/-- Settles O49: each of the five histories is two valid writes, so its law is that of the two writes on the machine. -/
theorem lastHostWriteWins : Obligations.LastHostWriteWins := by
  unfold Obligations.LastHostWriteWins
  intro ss a a' i i' b b' hopen hmem ha ha'
  have hlt : a < 4096 := Nat.lt_succ_of_le ha
  have hlt' : a' < 4096 := Nat.lt_succ_of_le ha'
  have va := HostOp.validWrite_writeMem ha
  have va' := HostOp.validWrite_writeMem ha'
  have vr := HostOp.validWrite_writeReg
  refine ⟨?_, ?_, ?_, ?_, ?_⟩
  · exact applyAll_two_writes_last (va b) (va b') hopen (State.writeMem_writeMem_same hmem hlt b b')
  · exact applyAll_two_writes_last (vr i b) (vr i b') hopen (ss.core.writeReg_writeReg_same i b b')
  · exact fun hne => applyAll_two_writes_comm (va b) (va' b') hopen (State.writeMem_comm hmem hlt hlt' hne b b')
  · exact fun hne => applyAll_two_writes_comm (vr i b) (vr i' b') hopen (ss.core.writeReg_comm hne b b')
  · exact applyAll_two_writes_comm (va b) (vr i b') hopen (ss.core.writeMem_writeReg_comm a i b b')

/-- Settles O42: in the window each write answers `written`; a byte reads by `Memory.read_write_of_wf`, and a register write has
the frame `writeReg_frame`. -/
theorem hostWritesBeforeTheRun : Obligations.HostWritesBeforeTheRun := by
  unfold Obligations.HostWritesBeforeTheRun
  intro ss b hopen hmem
  refine ⟨fun a ha => ?_, fun i => ?_⟩
  · exact ⟨_, HostOp.apply_validWrite_of_open (HostOp.validWrite_writeMem ha b) hopen, rfl,
      Memory.read_write_of_wf hmem a b, fun _ _ => rfl, rfl, ⟨fun _ => rfl, rfl⟩, rfl, rfl⟩
  · obtain ⟨hpc, hregs, hstack, hkept, hrun⟩ := ss.core.writeReg_frame i b
    exact ⟨_, HostOp.apply_validWrite_of_open (HostOp.validWrite_writeReg i b) hopen, rfl,
      State.writeReg_reg_same i b, hregs, hpc, hkept, hstack, hrun⟩

/-! ## Reset and the write window -/

/-- On an ended machine no operation but a reset changes the run state (rules R71, R161). -/
theorem HostOp.runState_of_ended {op : HostOp} (hended : ss.core.ended) (hr : op ≠ .reset) (h : op.apply ss = .next ss') :
    ss'.core.runState = ss.core.runState := by
  have hrun := hended.not_fetching
  obtain ⟨t, closed⟩ := ss'
  cases op with
  | reset => exact absurd rfl hr
  | writeMem a b =>
    obtain ⟨-, hvalid⟩ := HostOp.open_of_apply_write rfl h
    rw [HostOp.apply_validWrite ⟨rfl, hvalid⟩] at h
    rw [Session.core_of_hostWrite h]
    rfl
  | writeReg i b => rw [Session.core_of_hostWrite h]; rfl
  | step => cases (step_of_ended hrun).symm.trans (Session.advanced_eq_next h); rfl
  | run n => cases (runFor_of_ended hrun n).symm.trans (Session.advanced_eq_next h); rfl
  | observe => cases h; rfl

/-- Settles O8: the history up to the reset, then the reset, whose session no earlier one enters; and `runState_of_ended`. -/
theorem resetForgetsEverything : Obligations.ResetForgetsEverything := by
  unfold Obligations.ResetForgetsEverything
  refine ⟨fun before after ss ss' h => ?_, fun op ss ss' => HostOp.runState_of_ended⟩
  calc applyAll (before ++ .reset :: after) ss
      = applyAll (.reset :: after) ss' := applyAll_append h _
    _ = applyAll after ⟨State.reset, false⟩ := applyAll_cons_of_next HostOp.apply_reset after

/-- Settles O43: a Step, a Run and an Observe answer and close the window (`closed_of_apply`); a write with the window closed or
above memory by the equations of the two writes. -/
theorem writeWindowClosesWhenTheWritesEnd : Obligations.WriteWindowClosesWhenTheWritesEnd := by
  unfold Obligations.WriteWindowClosesWhenTheWritesEnd
  refine ⟨fun op ss hop => ?_, fun ss => HostOp.apply_reset, fun ss b hclosed => ⟨fun a ha => ?_, fun i => ?_⟩,
    fun ss b a ha => HostOp.apply_writeMem_of_ge ha b⟩
  · have hkind : op.isWrite = false ∧ op ≠ .reset := by
      rcases hop with rfl | ⟨n, rfl⟩ | rfl <;> exact ⟨rfl, nofun⟩
    obtain ⟨hw, hr⟩ := hkind
    obtain ⟨ss', h⟩ := HostOp.exists_next_of_not_write hw ss
    refine ⟨ss', h, HostOp.closed_of_apply hw hr h, ?_⟩
    rintro rfl
    cases h
    rfl
  · exact HostOp.apply_validWrite_of_closed (HostOp.validWrite_writeMem ha b) hclosed
  · exact HostOp.apply_validWrite_of_closed (HostOp.validWrite_writeReg i b) hclosed

/-! ## The histories with a meaning (rule R164) -/

/-- With the window closed, a history with a meaning and without a reset has no write. -/
theorem no_write_of_applyAll_closed : ∀ {ops : List HostOp} {ss ss' : Session}, ss.windowClosed = true →
    (∀ op ∈ ops, op ≠ .reset) → applyAll ops ss = .next ss' → ∀ op ∈ ops, op.isWrite = false
  | [], _, _, _, _, _ => List.forall_mem_nil _
  | op :: ops, ss, ss', hclosed, hreset, h => by
    obtain ⟨hr, hreset⟩ := List.forall_mem_cons.mp hreset
    obtain ⟨u, hu, hrest⟩ := applyAll_cons_next h
    have hw : op.isWrite = false := by
      refine Bool.eq_false_iff.mpr fun hw => ?_
      obtain ⟨hopen, -⟩ := HostOp.open_of_apply_write hw hu
      exact absurd (hopen.symm.trans hclosed) nofun
    exact List.forall_mem_cons.mpr
      ⟨hw, no_write_of_applyAll_closed (HostOp.closed_of_apply hw hr hu) hreset hrest⟩

/-- A history with a meaning and without a reset is valid writes and then operations that are no writes: its first operation
that is no write closes the window. -/
theorem exists_writes_append_of_applyAll : ∀ {ops : List HostOp} {ss ss' : Session}, (∀ op ∈ ops, op ≠ .reset) →
    applyAll ops ss = .next ss' → ∃ writes rest, ops = writes ++ rest ∧ (∀ op ∈ writes, op.ValidWrite) ∧
      ∀ op ∈ rest, op.isWrite = false
  | [], _, _, _, _ => ⟨[], [], rfl, List.forall_mem_nil _, List.forall_mem_nil _⟩
  | op :: ops, ss, ss', hreset, h => by
    obtain ⟨hr, hreset⟩ := List.forall_mem_cons.mp hreset
    obtain ⟨u, hu, hrest⟩ := applyAll_cons_next h
    cases hw : op.isWrite with
    | true =>
      obtain ⟨-, hvalid⟩ := HostOp.open_of_apply_write hw hu
      obtain ⟨writes, rest, rfl, hwrites, hno⟩ := exists_writes_append_of_applyAll hreset hrest
      exact ⟨op :: writes, rest, rfl, List.forall_mem_cons.mpr ⟨⟨hw, hvalid⟩, hwrites⟩, hno⟩
    | false =>
      have hclosed := HostOp.closed_of_apply hw hr hu
      exact ⟨[], op :: ops, rfl, List.forall_mem_nil _,
        List.forall_mem_cons.mpr ⟨hw, no_write_of_applyAll_closed hclosed hreset hrest⟩⟩

/-- Settles O48: a history with a meaning has the form by `exists_writes_append_of_applyAll`; one of the form has a meaning
because the writes find the window open and the others need no window. -/
theorem onlyTheLicensedHistoriesHaveAMeaning : Obligations.OnlyTheLicensedHistoriesHaveAMeaning := by
  unfold Obligations.OnlyTheLicensedHistoriesHaveAMeaning
  intro ops hreset
  constructor
  · rintro ⟨ss, h⟩
    exact exists_writes_append_of_applyAll hreset h
  · rintro ⟨writes, rest, rfl, hwrites, hno⟩
    rw [applyAll_append (applyAll_validWrites hwrites rfl)]
    exact applyAll_exists_next_of_no_write hno _

/-! ## The budget of a run (rule R169) -/

/-- Settles O46: a run answers, goes on by `runFor_add`, and one that is still FETCHING has not faulted. -/
theorem budgetIsNoEvent : Obligations.BudgetIsNoEvent := by
  unfold Obligations.BudgetIsNoEvent
  intro n m s
  obtain ⟨t, h⟩ := exists_next_of_runFor n s
  exact ⟨t, h, runFor_add h m, fun hrun => runFor_fault_of_not_faulted h (by rw [hrun]; decide)⟩

end Sys2Proof.Machine
end
